-- ==== Sys2Proof/Word.lean ====
section
/-! DEFINITION. The machine's word types (00_scope.md R13, R14; 10_state.md R30, R33). -/

namespace Sys2Proof

/-- A byte: a general register, a timer, a memory cell. -/
abbrev Byte := BitVec 8

/-- A 16-bit word: `PC`, `I`, a stack entry, an instruction word. -/
abbrev Word := BitVec 16

/-- The `NNN` field (30_encoding.md R101). -/
abbrev Addr := BitVec 12

/-- A nibble: a register index, a key index, the `N` field (30_encoding.md R101). -/
abbrev Nib := BitVec 4

end Sys2Proof
end

