-- ==== Sys2Proof/Config.lean ====
section
/-! DEFINITION. The fixed sizes (00_scope.md R10), the implementation parameters (00_scope.md R11) and
the free value of CXNN. -/

namespace Sys2Proof

namespace Config

/-- `MEM_SIZE`. -/
abbrev memSize : Nat := 4096
/-- `STACK_DEPTH`. -/
abbrev stackDepth : Nat := 16
/-- `FB_W`. -/
abbrev fbW : Nat := 64
/-- `FB_H`. -/
abbrev fbH : Nat := 32
/-- `LOAD_BASE`. -/
abbrev loadBase : Nat := 0x200
/-- `MAX_IMAGE`. -/
abbrev maxImage : Nat := 3584
/-- One tick in the scaled units of `TACC`: 60 times a 60th of a second in ns (60_exceptions.md R340). -/
abbrev tickUnit : Nat := 1000000000

/-- FREE VALUE (log 4): the random byte of the `k`-th CXNN a machine runs. It has no body, so no proof
knows any of its values: the draw is under no law (42_alu.md R211, 92_eei_decisions.md D18). -/
opaque freeDraw : Nat → Byte

end Config

/-- `DECODE_FAULT_POLICY` (40_execution_loop.md R145). -/
inductive DecodePolicy where
  | fault
  | skip
  deriving DecidableEq, Repr

/-- `RET_EMPTY_POLICY` (41_flow.md R171). -/
inductive RetEmptyPolicy where
  | fault
  | ignoreReported
  deriving DecidableEq, Repr

/-- `DRAW_EDGE` (44_display.md R264). -/
inductive DrawEdge where
  | clip
  | wrap
  deriving DecidableEq, Repr

/-- The parameters of 00_scope.md R11 that are values; `rand` is `Config.freeDraw`. -/
structure Params where
  decodeFault : DecodePolicy
  retEmpty : RetEmptyPolicy
  drawEdge : DrawEdge
  fontPreload : Bool
  fontBase : Addr
  fontGlyphs : Vector Byte 80
  deriving DecidableEq, Repr

/-- `FONT_BASE + 79` is below 0x200, so the font and the image never overlap (70_reset_and_hazards.md
R383). -/
abbrev Params.FontFits (p : Params) : Prop := p.fontBase.toNat + 79 < Config.loadBase

end Sys2Proof
end

