-- ==== Sys2Proof/Machine/Defaults.lean ====
section
/-! DEFINITION. The default parameters of 00_scope.md R11. -/

namespace Sys2Proof.Machine

/-- `FONT_GLYPHS`: five bytes for each hex digit (93_implementation_defined.md GK7). -/
def defaultGlyphs : Vector Byte 80 :=
  #v[ 0xF0, 0x90, 0x90, 0x90, 0xF0,  -- 0
      0x20, 0x60, 0x20, 0x20, 0x70,  -- 1
      0xF0, 0x10, 0xF0, 0x80, 0xF0,  -- 2
      0xF0, 0x10, 0xF0, 0x10, 0xF0,  -- 3
      0x90, 0x90, 0xF0, 0x10, 0x10,  -- 4
      0xF0, 0x80, 0xF0, 0x10, 0xF0,  -- 5
      0xF0, 0x80, 0xF0, 0x90, 0xF0,  -- 6
      0xF0, 0x10, 0x20, 0x40, 0x40,  -- 7
      0xF0, 0x90, 0xF0, 0x90, 0xF0,  -- 8
      0xF0, 0x90, 0xF0, 0x10, 0xF0,  -- 9
      0xF0, 0x90, 0xF0, 0x90, 0x90,  -- A
      0xE0, 0x90, 0xE0, 0x90, 0xE0,  -- B
      0xF0, 0x80, 0x80, 0x80, 0xF0,  -- C
      0xE0, 0x90, 0x90, 0x90, 0xE0,  -- D
      0xF0, 0x80, 0xF0, 0x80, 0xF0,  -- E
      0xF0, 0x80, 0xF0, 0x80, 0x80 ] -- F

/-- The defaults of 00_scope.md R11 (92_eei_decisions.md D2, D3, D6, D12). -/
def defaultParams : Params where
  decodeFault := .fault
  retEmpty := .fault
  drawEdge := .clip
  fontPreload := true
  fontBase := 0x000
  fontGlyphs := defaultGlyphs

end Sys2Proof.Machine
end

