-- ==== Sys2Proof/Machine/State.lean ====
section
/-! DEFINITION. The machine's state (10_state.md R30 to R49), the events it takes (60_exceptions.md
R360), the reasons a step stops, and the state after reset. Plain data throughout. -/

namespace Sys2Proof.Machine

/-- `EXEC` (10_state.md R42). -/
inductive RunState where
  | running
  | faulted
  | halted
  deriving DecidableEq, Repr

/-- The five fault causes (60_exceptions.md R320). -/
inductive Cause where
  | boundsFetch
  | decode
  | boundsData
  | stackOverflow
  | stackUnderflow
  deriving DecidableEq, Repr

/-- `FAULT` when it is not `none` (10_state.md R43). -/
structure FaultRecord where
  cause : Cause
  ipc : Word
  word : Option Word
  addr : Option Nat
  deriving DecidableEq, Repr

/-- The two things `DIAG` reports (10_state.md R46). -/
inductive DiagKind where
  | decodeSkip
  | retEmpty
  deriving DecidableEq, Repr

/-- One record of `DIAG` (10_state.md R46). -/
structure DiagRecord where
  kind : DiagKind
  ipc : Word
  word : Word
  deriving DecidableEq, Repr

/-- The events of 60_exceptions.md R360. A key index is a nibble, so the host's duty to send only 0 to
15 (60_exceptions.md R361) is the type's; a time is a natural number of nanoseconds. -/
inductive Event where
  | cycle
  | time (dt : Nat)
  | key (k : Nib) (pressed : Bool)
  | stop
  | reset
  | load (img : List Byte)
  deriving DecidableEq, Repr

/-- Memory: (address, byte) pairs, addresses strictly rising, no pair holding what an unlisted address
reads as (`Memory.wf` in Ops.lean). -/
abbrev Memory := List Host.Cell

/-- Everything 10_state.md R49 lists, the parameters of 00_scope.md R11, and two fields of the model's
own: `draws` (log 4) and `pending` (log 1). -/
structure State where
  /-- `V0` to `VF` (10_state.md R30) -/
  v : Vector Byte 16
  /-- `I` (R32) -/
  i : Word
  /-- `PC` (R33) -/
  pc : Word
  /-- The call stack `S`, oldest entry first (R35) -/
  stack : List Word
  /-- `DT` (R37) -/
  dt : Byte
  /-- `ST` (R37) -/
  st : Byte
  /-- `TACC`, below 10^9 (R38) -/
  tacc : Nat
  /-- `FB`: row `y`, bit `x` is `FB[x, y]` (R39, log 11) -/
  fb : Vector (BitVec 64) 32
  /-- `Key[0..15]`, true when pressed (R40) -/
  keys : Vector Bool 16
  /-- `LAST`, `none` for -1 (R40) -/
  last : Option Nib
  /-- `EXEC` (R42) -/
  exec : RunState
  /-- `FAULT` (R43) -/
  fault : Option FaultRecord
  /-- `WAIT` (R44) -/
  wait : Option Nib
  /-- `DISP_EV` (R45) -/
  dispEv : Nat
  /-- `DIAG`, oldest record first (R46) -/
  diag : List DiagRecord
  /-- `MEM` (20_memory.md R70) -/
  mem : Memory
  /-- The parameters (00_scope.md R11, log 3); no step changes them -/
  params : Params
  /-- The model's own: how many draws CXNN has taken (log 4) -/
  draws : Nat
  /-- The model's own: the events the environment still sends, the next one first (log 1) -/
  pending : List Event
  deriving DecidableEq, Repr

/-- Why a step has no next state: a `Cycle` that is not enabled (40_execution_loop.md R147). Each is
SAFE: the spec gives the machine no step there (log 5). The spec's own faults are not here: taking one
is a next state with `EXEC = Faulted` (60_exceptions.md R325). -/
inductive Fault where
  /-- Raised by `cycle` when `EXEC = Faulted`. Safe. -/
  | cycleWhenFaulted
  /-- Raised by `cycle` when `EXEC = Halted`. Safe. -/
  | cycleWhenHalted
  /-- Raised by `cycle` when `WAIT` is not `none`: the FX0A wait goes on. Safe. -/
  | cycleInKeyWait
  deriving DecidableEq, Repr

/-- What the model does not run. -/
inductive Refusal where
  /-- Raised by an arm of `exec` for an instruction with no meaning yet; no arm raises it now. Safe. -/
  | notModelled (mnemonic : String)
  /-- Raised by a `Load` of an empty image: a Load Error, which changes no state
  (70_reset_and_hazards.md R384, log 6). Safe. -/
  | loadErrorEmpty
  /-- Raised by a `Load` of more than 3584 bytes: a Load Error (R384, log 6). Safe. -/
  | loadErrorTooLong
  /-- Raised by a `Load` whose font would not lie below 0x200: parameters 70_reset_and_hazards.md R383
  rules out (log 7). Safe. -/
  | fontBaseOutOfRange
  deriving DecidableEq, Repr

/-- What a step answers. -/
abbrev Result := Host.Outcome State Fault Refusal

/-- The state after reset (10_state.md R49, 70_reset_and_hazards.md R380), with the default parameters
(00_scope.md R11) and no event pending. -/
def State.reset : State where
  v := Vector.replicate 16 0
  i := 0
  pc := 0x200
  stack := []
  dt := 0
  st := 0
  tacc := 0
  fb := Vector.replicate 32 0
  keys := Vector.replicate 16 false
  last := none
  exec := .running
  fault := none
  wait := none
  dispEv := 0
  diag := []
  mem := []
  params := defaultParams
  draws := 0
  pending := []

end Sys2Proof.Machine
end

