-- ==== Sys2Proof/Machine/Ops.lean ====
section
/-! DEFINITION. The named operations over memory, registers, the stack, the framebuffer and the fault
record; entering a fault, and the reset that alone leaves it. -/

namespace Sys2Proof.Machine

/-! ## Memory (20_memory.md) -/

/-- What an address that memory does not list reads as: memory is all zero at reset (10_state.md R49). -/
def Memory.unlisted (_a : Nat) : Byte := 0

/-- The byte at an address. -/
def Memory.read : Memory → Nat → Byte
  | [], a => Memory.unlisted a
  | (b, v) :: m, a => if b = a then v else Memory.read m a

/-- Memory with one byte written, in the canonical form: a pair that would hold what an unlisted
address reads as is left out. -/
def Memory.write : Memory → Nat → Byte → Memory
  | [], a, v => if v = Memory.unlisted a then [] else [(a, v)]
  | (b, u) :: m, a, v =>
    if a < b then (if v = Memory.unlisted a then (b, u) :: m else (a, v) :: (b, u) :: m)
    else if a = b then (if v = Memory.unlisted a then m else (a, v) :: m)
    else (b, u) :: Memory.write m a v

/-- Memory with bytes written at `a`, `a + 1`, ... in this order. -/
def Memory.writeList (m : Memory) (a : Nat) : List Byte → Memory
  | [] => m
  | v :: vs => Memory.writeList (m.write a v) (a + 1) vs

/-- The canonical form: addresses strictly rising, none of them outside memory (20_memory.md R70), no
pair equal to what an unlisted address reads as. -/
abbrev Memory.wf (m : Memory) : Prop :=
  m.Pairwise (fun c d => c.1 < d.1) ∧ ∀ c ∈ m, c.2 ≠ Memory.unlisted c.1 ∧ c.1 < Config.memSize

/-- The byte of the machine's memory at an address (20_memory.md R74, for an address in bounds). -/
def State.readByte (s : State) (a : Nat) : Byte := s.mem.read a

/-- The machine with another memory. -/
def State.setMem (s : State) (m : Memory) : State := { s with mem := m }

/-- `CheckRange(lo, n)` (43_index_memory.md R231, 20_memory.md R75): `none` when the `n` bytes from
`lo` all lie in memory, else the lowest address of the range that does not. -/
def checkRange (lo n : Nat) : Option Nat :=
  if n > 0 ∧ lo + n - 1 ≥ Config.memSize then some (max lo Config.memSize) else none

/-- Read `n` bytes from `lo`, the whole range checked first (20_memory.md R74, R75); the error is the
lowest out-of-range address. -/
def State.loadBytes (s : State) (lo n : Nat) : Except Nat (List Byte) :=
  match checkRange lo n with
  | some a => .error a
  | none => .ok ((List.range n).map fun k => s.readByte (lo + k))

/-- Write bytes from `lo`, the whole range checked first, nothing written on an error (20_memory.md
R74, R75). -/
def State.storeBytes (s : State) (lo : Nat) (vs : List Byte) : Except Nat State :=
  match checkRange lo vs.length with
  | some a => .error a
  | none => .ok (s.setMem (s.mem.writeList lo vs))

/-! ## Registers (10_state.md) -/

/-- The index of `VF` (10_state.md R31). -/
abbrev vf : Nib := 15

/-- `V[x]` (10_state.md R30). -/
def State.getV (s : State) (x : Nib) : Byte := s.v[x.toNat]'x.isLt

/-- `V[x] <- b` (10_state.md R30). -/
def State.setV (s : State) (x : Nib) (b : Byte) : State := { s with v := s.v.set x.toNat b x.isLt }

/-- The register file with bytes written to registers `k`, `k + 1`, ... in this order. -/
def writeRegs (v : Vector Byte 16) (k : Nat) : List Byte → Vector Byte 16
  | [] => v
  | b :: bs => writeRegs (v.setIfInBounds k b) (k + 1) bs

/-- `V[0], V[1], ...` written with bytes, in this order. -/
def State.setVs (s : State) (bs : List Byte) : State := { s with v := writeRegs s.v 0 bs }

/-- `V[0], ..., V[x]` (43_index_memory.md R235). -/
def State.getVs (s : State) (x : Nib) : List Byte :=
  (List.range (x.toNat + 1)).map fun k => s.getV (BitVec.ofNat 4 k)

/-- `I <- w` (10_state.md R32). -/
def State.setI (s : State) (w : Word) : State := { s with i := w }

/-- `PC <- w` (10_state.md R33). -/
def State.setPc (s : State) (w : Word) : State := { s with pc := w }

/-- `DT <- b` (10_state.md R37). -/
def State.setDt (s : State) (b : Byte) : State := { s with dt := b }

/-- `ST <- b` (10_state.md R37). -/
def State.setSt (s : State) (b : Byte) : State := { s with st := b }

/-- `TACC`, `DT` and `ST` written together (60_exceptions.md R340). -/
def State.setTimers (s : State) (tacc : Nat) (dt st : Byte) : State :=
  { s with tacc := tacc, dt := dt, st := st }

/-- `EXEC <- e` (10_state.md R42). -/
def State.setExec (s : State) (e : RunState) : State := { s with exec := e }

/-- `WAIT <- w` (10_state.md R44). -/
def State.setWait (s : State) (w : Option Nib) : State := { s with wait := w }

/-- `skip` when a condition holds: `PC <- PC + 2` on top of the cycle's advance (41_flow.md R180). -/
def State.skipIf (s : State) (c : Bool) : State := if c then s.setPc (s.pc + 2) else s

/-- One more random draw taken (log 4). -/
def State.nextDraw (s : State) : State := { s with draws := s.draws + 1 }

/-- The machine with other pending events (log 1). -/
def State.setPending (s : State) (l : List Event) : State := { s with pending := l }

/-- The `sound_on` output (10_state.md R48). -/
def State.soundOn (s : State) : Bool := s.st != 0

/-! ## The call stack (10_state.md R35, R36) -/

/-- The machine with another stack. -/
def State.setStack (s : State) (st : List Word) : State := { s with stack := st }

/-- `Push(a)`; `none` when the stack is full, and then nothing changes (10_state.md R36). -/
def State.push (s : State) (a : Word) : Option State :=
  if s.stack.length < Config.stackDepth then some (s.setStack (s.stack ++ [a])) else none

/-- `Pop()`: the newest entry and the machine without it; `none` when the stack is empty (10_state.md
R36). -/
def State.pop (s : State) : Option (Word × State) :=
  match s.stack.getLast? with
  | some a => some (a, s.setStack s.stack.dropLast)
  | none => none

/-! ## The framebuffer (10_state.md R39) and its display events (R45) -/

/-- The framebuffer: row `y`, bit `x`. -/
abbrev FrameBuf := Vector (BitVec 64) 32

/-- `FB[x, y]`; false outside the grid. -/
def FrameBuf.get (fb : FrameBuf) (x y : Nat) : Bool :=
  if h : y < 32 then (fb[y]'h).getLsbD x else false

/-- `FB[x, y] <- FB[x, y] ^ 1`; nothing outside the grid. -/
def FrameBuf.flip (fb : FrameBuf) (x y : Nat) : FrameBuf :=
  if h : y < 32 then fb.set y (fb[y]'h ^^^ BitVec.twoPow 64 x) h else fb

/-- The clear framebuffer. -/
def FrameBuf.clear : FrameBuf := Vector.replicate 32 0

/-- `FB[x, y]` of the machine. -/
def State.fbAt (s : State) (x y : Nat) : Bool := FrameBuf.get s.fb x y

/-- The machine with another framebuffer. -/
def State.setFb (s : State) (fb : FrameBuf) : State := { s with fb := fb }

/-- `DISP_EV <- DISP_EV + 1` (10_state.md R45). -/
def State.countDisplay (s : State) : State := { s with dispEv := s.dispEv + 1 }

/-! ## The input latch (10_state.md R40, R41) -/

/-- `Key[k]`. -/
def State.key (s : State) (k : Nib) : Bool := s.keys[k.toNat]'k.isLt

/-- `Key[k] <- p`. -/
def State.setKey (s : State) (k : Nib) (p : Bool) : State :=
  { s with keys := s.keys.set k.toNat p k.isLt }

/-- `LAST <- l`, `none` for -1. -/
def State.setLast (s : State) (l : Option Nib) : State := { s with last := l }

/-- Every key is released. -/
def State.allReleased (s : State) : Bool := s.keys.toList.all (fun b => !b)

/-! ## Diagnostics, faults and the way out of them -/

/-- Append a record to `DIAG` (10_state.md R46). -/
def State.addDiag (s : State) (kind : DiagKind) (ipc word : Word) : State :=
  { s with diag := s.diag ++ [⟨kind, ipc, word⟩] }

/-- The 4-bit code of a cause (60_exceptions.md R320). -/
def Cause.code : Cause → BitVec 4
  | .boundsFetch => 1
  | .decode => 2
  | .boundsData => 3
  | .stackOverflow => 4
  | .stackUnderflow => 5

/-- `raise Fault(cause, info)`: `EXEC <- Faulted`, `FAULT` recorded, everything else as it was when the
fault was raised (60_exceptions.md R325). -/
def State.raise (s : State) (c : Cause) (ipc : Word) (word : Option Word) (addr : Option Nat) : State :=
  { s with exec := .faulted, fault := some ⟨c, ipc, word, addr⟩ }

/-- The address the running instruction was fetched from: during its execution `PC` is `ipc + 2`
(10_state.md R34, log 10). -/
def State.ipc (s : State) : Word := s.pc - 2

/-- `raise` inside the handler of the instruction whose word is `w`: the fault carries the cycle's
`ipc` and `word` (40_execution_loop.md R146, 60_exceptions.md R325). -/
def State.raiseIn (s : State) (c : Cause) (w : Word) (addr : Option Nat) : Result :=
  .next (s.raise c s.ipc (some w) addr)

/-- Every piece of the spec's state at its reset value (70_reset_and_hazards.md R380): the only way out
of `Faulted` and `Halted` (60_exceptions.md R328). The model's own `pending` and `draws` and the
parameters are no state of the spec, and stay (log 8). -/
def State.toReset (s : State) : State :=
  { State.reset with params := s.params, draws := s.draws, pending := s.pending }

end Sys2Proof.Machine
end

