-- ==== Sys2Proof/Machine/Flags.lean ====
section
/-! DEFINITION. Results and flags of the arithmetic instructions (42_alu.md R212, R213). -/

namespace Sys2Proof.Machine

/-- A flag as the byte `VF` gets: 1 or 0. -/
def flagByte (f : Bool) : Byte := if f then 1 else 0

/-- The exact sum, truncated `mod 256` (42_alu.md R212). -/
def addResult (a b : Byte) : Byte := BitVec.ofNat 8 (a.toNat + b.toNat)

/-- An add carries out when the exact sum exceeds 0xFF (42_alu.md R212). -/
def addCarry (a b : Byte) : Bool := decide (a.toNat + b.toNat > 0xFF)

/-- The exact difference, truncated `mod 256` (42_alu.md R212). -/
def subResult (a b : Byte) : Byte := BitVec.ofInt 8 ((a.toNat : Int) - (b.toNat : Int))

/-- No borrow: `a >= b` (42_alu.md R212). -/
def noBorrow (a b : Byte) : Bool := decide (a.toNat ≥ b.toNat)

/-- `v >> 1` (42_alu.md R208). -/
def shrResult (v : Byte) : Byte := v >>> 1

/-- The bit a right shift moves out: the old bit 0 (42_alu.md R208). -/
def shrOut (v : Byte) : Bool := v.getLsbD 0

/-- `(v << 1) mod 256` (42_alu.md R210). -/
def shlResult (v : Byte) : Byte := v <<< 1

/-- The bit a left shift moves out: the old bit 7 (42_alu.md R210). -/
def shlOut (v : Byte) : Bool := v.getLsbD 7

/-- A result and then the flag, written last, so that the flag stands when the destination is `VF`
(42_alu.md R213). -/
def State.setVFlag (s : State) (x : Nib) (r : Byte) (f : Bool) : State :=
  (s.setV x r).setV vf (flagByte f)

/-- A shift's result to both registers, then the flag (42_alu.md R208, R210, R213). -/
def State.setVVFlag (s : State) (x y : Nib) (r : Byte) (f : Bool) : State :=
  (s.setV x r).setVFlag y r f

end Sys2Proof.Machine
end

