-- ==== Sys2Proof/Machine/Alu.lean ====
section
/-! DEFINITION. Register and arithmetic instructions (42_alu.md). -/

namespace Sys2Proof.Machine

/-- LD imm (42_alu.md R200). -/
def execLdImm (x : Nib) (nn : Byte) (s : State) : Result := .next (s.setV x nn)

/-- ADD imm, no flag (42_alu.md R201). -/
def execAddImm (x : Nib) (nn : Byte) (s : State) : Result :=
  .next (s.setV x (addResult (s.getV x) nn))

/-- LD reg (42_alu.md R202). -/
def execLdReg (x y : Nib) (s : State) : Result := .next (s.setV x (s.getV y))

/-- OR (42_alu.md R203). -/
def execOrReg (x y : Nib) (s : State) : Result := .next (s.setV x (s.getV x ||| s.getV y))

/-- AND (42_alu.md R204). -/
def execAndReg (x y : Nib) (s : State) : Result := .next (s.setV x (s.getV x &&& s.getV y))

/-- XOR (42_alu.md R205). -/
def execXorReg (x y : Nib) (s : State) : Result := .next (s.setV x (s.getV x ^^^ s.getV y))

/-- ADD reg: the carry is the flag (42_alu.md R206). -/
def execAddReg (x y : Nib) (s : State) : Result :=
  .next (s.setVFlag x (addResult (s.getV x) (s.getV y)) (addCarry (s.getV x) (s.getV y)))

/-- SUB: `V[X] - V[Y]`, no borrow is the flag (42_alu.md R207). -/
def execSub (x y : Nib) (s : State) : Result :=
  .next (s.setVFlag x (subResult (s.getV x) (s.getV y)) (noBorrow (s.getV x) (s.getV y)))

/-- SHR: `V[Y] >> 1` to both, the old bit 0 is the flag (42_alu.md R208). -/
def execShr (x y : Nib) (s : State) : Result :=
  .next (s.setVVFlag x y (shrResult (s.getV y)) (shrOut (s.getV y)))

/-- SUBN: `V[Y] - V[X]`, no borrow is the flag (42_alu.md R209). -/
def execSubn (x y : Nib) (s : State) : Result :=
  .next (s.setVFlag x (subResult (s.getV y) (s.getV x)) (noBorrow (s.getV y) (s.getV x)))

/-- SHL: `V[Y] << 1` to both, the old bit 7 is the flag (42_alu.md R210). -/
def execShl (x y : Nib) (s : State) : Result :=
  .next (s.setVVFlag x y (shlResult (s.getV y)) (shlOut (s.getV y)))

/-- The draw the next CXNN takes, a free value (42_alu.md R211, log 4). -/
def State.rand (s : State) : Byte := Config.freeDraw s.draws

/-- RND: a free draw ANDed with the mask (42_alu.md R211). -/
def execRnd (x : Nib) (nn : Byte) (s : State) : Result := .next ((s.setV x (s.rand &&& nn)).nextDraw)

end Sys2Proof.Machine
end

