-- ==== Sys2Proof/Syntax.lean ====
section
/-! DEFINITION. The 35 instructions of spec/opcode_table.json, in table order (30_encoding.md R105). -/

namespace Sys2Proof

/-- One constructor per row of the dispatch table; the arguments are the row's operand fields.
`sys` carries its don't-care `NNN` so that the instruction's word is not lost (30_encoding.md R111). -/
inductive Instr where
  /-- 00E0 `CLS` -/
  | cls
  /-- 00EE `RET` -/
  | ret
  /-- 0NNN `SYS addr` -/
  | sys (nnn : Addr)
  /-- 1NNN `JP addr` -/
  | jp (nnn : Addr)
  /-- 2NNN `CALL addr` -/
  | call (nnn : Addr)
  /-- 3XNN `SE Vx, byte` -/
  | seImm (x : Nib) (nn : Byte)
  /-- 4XNN `SNE Vx, byte` -/
  | sneImm (x : Nib) (nn : Byte)
  /-- 5XY0 `SE Vx, Vy` -/
  | seReg (x y : Nib)
  /-- 6XNN `LD Vx, byte` -/
  | ldImm (x : Nib) (nn : Byte)
  /-- 7XNN `ADD Vx, byte` -/
  | addImm (x : Nib) (nn : Byte)
  /-- 8XY0 `LD Vx, Vy` -/
  | ldReg (x y : Nib)
  /-- 8XY1 `OR Vx, Vy` -/
  | orReg (x y : Nib)
  /-- 8XY2 `AND Vx, Vy` -/
  | andReg (x y : Nib)
  /-- 8XY3 `XOR Vx, Vy` -/
  | xorReg (x y : Nib)
  /-- 8XY4 `ADD Vx, Vy` -/
  | addReg (x y : Nib)
  /-- 8XY5 `SUB Vx, Vy` -/
  | sub (x y : Nib)
  /-- 8XY6 `SHR Vx, Vy` -/
  | shr (x y : Nib)
  /-- 8XY7 `SUBN Vx, Vy` -/
  | subn (x y : Nib)
  /-- 8XYE `SHL Vx, Vy` -/
  | shl (x y : Nib)
  /-- 9XY0 `SNE Vx, Vy` -/
  | sneReg (x y : Nib)
  /-- ANNN `LD I, addr` -/
  | ldI (nnn : Addr)
  /-- BNNN `JP V0, addr` -/
  | jpV0 (nnn : Addr)
  /-- CXNN `RND Vx, byte` -/
  | rnd (x : Nib) (nn : Byte)
  /-- DXYN `DRW Vx, Vy, nibble` -/
  | drw (x y n : Nib)
  /-- EX9E `SKP Vx` -/
  | skp (x : Nib)
  /-- EXA1 `SKNP Vx` -/
  | sknp (x : Nib)
  /-- FX07 `LD Vx, DT` -/
  | ldVxDt (x : Nib)
  /-- FX0A `LD Vx, K` -/
  | ldVxK (x : Nib)
  /-- FX15 `LD DT, Vx` -/
  | ldDtVx (x : Nib)
  /-- FX18 `LD ST, Vx` -/
  | ldStVx (x : Nib)
  /-- FX1E `ADD I, Vx` -/
  | addI (x : Nib)
  /-- FX29 `LD F, Vx` -/
  | ldF (x : Nib)
  /-- FX33 `LD B, Vx` -/
  | ldB (x : Nib)
  /-- FX55 `LD [I], Vx` -/
  | ldMemVx (x : Nib)
  /-- FX65 `LD Vx, [I]` -/
  | ldVxMem (x : Nib)
  deriving DecidableEq, Repr

end Sys2Proof
end

