-- ==== Sys2Proof/WellFormed.lean ====
section
/-! DEFINITION. When an instruction term has a word of its own (30_encoding.md R106). -/

namespace Sys2Proof

/-- Every operand's range is its type. The one further check: `sys` with the `NNN` of 0x00E0 or of
0x00EE has no word, because the dispatch table gives those two words to `CLS` and `RET`. -/
def Instr.WellFormed : Instr → Bool
  | .sys nnn => nnn != 0x0E0#12 && nnn != 0x0EE#12
  | .cls | .ret | .jp _ | .call _ | .seImm _ _ | .sneImm _ _ | .seReg _ _ | .ldImm _ _ | .addImm _ _
  | .ldReg _ _ | .orReg _ _ | .andReg _ _ | .xorReg _ _ | .addReg _ _ | .sub _ _ | .shr _ _
  | .subn _ _ | .shl _ _ | .sneReg _ _ | .ldI _ | .jpV0 _ | .rnd _ _ | .drw _ _ _ | .skp _ | .sknp _
  | .ldVxDt _ | .ldVxK _ | .ldDtVx _ | .ldStVx _ | .addI _ | .ldF _ | .ldB _ | .ldMemVx _
  | .ldVxMem _ => true

end Sys2Proof
end

