-- ==== Sys2Proof/Decode.lean ====
section
/-! DEFINITION. The field decoder, the ordered dispatch table, the decoder over bytes, and the encoder
(30_encoding.md R100 to R111). -/

namespace Sys2Proof

/-- The five fields of a word (30_encoding.md R101). -/
structure Fields where
  nnn : Addr
  nn : Byte
  n : Nib
  x : Nib
  y : Nib
  deriving DecidableEq, Repr

/-- The field decoder, total on all words (30_encoding.md R101). -/
def fieldsOf (w : Word) : Fields where
  nnn := w.extractLsb' 0 12
  nn := w.extractLsb' 0 8
  n := w.extractLsb' 0 4
  x := w.extractLsb' 8 4
  y := w.extractLsb' 4 4

/-- One entry of the dispatch table (30_encoding.md R104): the opcode bits, the mask, and the
instruction the entry's handler is. -/
structure Row where
  bits : Word
  mask : Word
  handler : Fields → Instr

/-- `word & mask = opcode-bits` (30_encoding.md R104). -/
def Row.matches (r : Row) (w : Word) : Bool := w &&& r.mask == r.bits

/-- Rows 0 to 9 of 30_encoding.md R105. -/
def rowsFlow : List Row :=
  [ ⟨0x00E0, 0xFFFF, fun _ => .cls⟩
  , ⟨0x00EE, 0xFFFF, fun _ => .ret⟩
  , ⟨0x0000, 0xF000, fun f => .sys f.nnn⟩
  , ⟨0x1000, 0xF000, fun f => .jp f.nnn⟩
  , ⟨0x2000, 0xF000, fun f => .call f.nnn⟩
  , ⟨0x3000, 0xF000, fun f => .seImm f.x f.nn⟩
  , ⟨0x4000, 0xF000, fun f => .sneImm f.x f.nn⟩
  , ⟨0x5000, 0xF00F, fun f => .seReg f.x f.y⟩
  , ⟨0x6000, 0xF000, fun f => .ldImm f.x f.nn⟩
  , ⟨0x7000, 0xF000, fun f => .addImm f.x f.nn⟩ ]

/-- Rows 10 to 23 of 30_encoding.md R105. -/
def rowsAlu : List Row :=
  [ ⟨0x8000, 0xF00F, fun f => .ldReg f.x f.y⟩
  , ⟨0x8001, 0xF00F, fun f => .orReg f.x f.y⟩
  , ⟨0x8002, 0xF00F, fun f => .andReg f.x f.y⟩
  , ⟨0x8003, 0xF00F, fun f => .xorReg f.x f.y⟩
  , ⟨0x8004, 0xF00F, fun f => .addReg f.x f.y⟩
  , ⟨0x8005, 0xF00F, fun f => .sub f.x f.y⟩
  , ⟨0x8006, 0xF00F, fun f => .shr f.x f.y⟩
  , ⟨0x8007, 0xF00F, fun f => .subn f.x f.y⟩
  , ⟨0x800E, 0xF00F, fun f => .shl f.x f.y⟩
  , ⟨0x9000, 0xF00F, fun f => .sneReg f.x f.y⟩
  , ⟨0xA000, 0xF000, fun f => .ldI f.nnn⟩
  , ⟨0xB000, 0xF000, fun f => .jpV0 f.nnn⟩
  , ⟨0xC000, 0xF000, fun f => .rnd f.x f.nn⟩
  , ⟨0xD000, 0xF000, fun f => .drw f.x f.y f.n⟩ ]

/-- Rows 24 to 34 of 30_encoding.md R105. -/
def rowsMisc : List Row :=
  [ ⟨0xE09E, 0xF0FF, fun f => .skp f.x⟩
  , ⟨0xE0A1, 0xF0FF, fun f => .sknp f.x⟩
  , ⟨0xF007, 0xF0FF, fun f => .ldVxDt f.x⟩
  , ⟨0xF00A, 0xF0FF, fun f => .ldVxK f.x⟩
  , ⟨0xF015, 0xF0FF, fun f => .ldDtVx f.x⟩
  , ⟨0xF018, 0xF0FF, fun f => .ldStVx f.x⟩
  , ⟨0xF01E, 0xF0FF, fun f => .addI f.x⟩
  , ⟨0xF029, 0xF0FF, fun f => .ldF f.x⟩
  , ⟨0xF033, 0xF0FF, fun f => .ldB f.x⟩
  , ⟨0xF055, 0xF0FF, fun f => .ldMemVx f.x⟩
  , ⟨0xF065, 0xF0FF, fun f => .ldVxMem f.x⟩ ]

/-- The dispatch table: 35 rows in the order of 30_encoding.md R105. -/
def dispatchTable : List Row := rowsFlow ++ rowsAlu ++ rowsMisc

/-- Why a decoder refuses bytes. -/
inductive DecodeError where
  /-- No entry matches the word: a Decode Fault (30_encoding.md R109). -/
  | noMatch (w : Word)
  /-- Fewer than two bytes: no instruction is that short (30_encoding.md R100). -/
  | truncated
  deriving DecidableEq, Repr

/-- First match wins (30_encoding.md R104). -/
def dispatch (w : Word) : Option Row := dispatchTable.find? (·.matches w)

/-- Decode one word: the first matching row's instruction with the word's fields, or a refusal that
names the word (40_execution_loop.md R143, R145). -/
def decodeWord (w : Word) : Except DecodeError Instr :=
  match dispatch w with
  | some r => .ok (r.handler (fieldsOf w))
  | none => .error (.noMatch w)

/-- The word of two bytes, the lower address first: big-endian (20_memory.md R72). -/
def wordOfBytes (hi lo : Byte) : Word := hi ++ lo

/-- Decode the instruction at the head of a byte sequence, and what follows it. -/
def decode : List Byte → Except DecodeError (Instr × List Byte)
  | hi :: lo :: rest =>
    match decodeWord (wordOfBytes hi lo) with
    | .ok i => .ok (i, rest)
    | .error e => .error e
  | _ => .error .truncated

/-! ## Encoder, from the operand shapes of 30_encoding.md R103 and the patterns of R105 -/

/-- Shape `A`: an opcode nibble and `NNN`. -/
def encA (op : Nib) (nnn : Addr) : Word := op ++ nnn

/-- Shape `XNN`: an opcode nibble, `X`, `NN`. -/
def encXNN (op x : Nib) (nn : Byte) : Word := op ++ x ++ nn

/-- Shapes `XY` and `XYN`: an opcode nibble, `X`, `Y`, and a sub-op or `N`. -/
def encXYN (op x y n : Nib) : Word := op ++ x ++ y ++ n

/-- Shape `X`: an opcode nibble, `X`, and a sub-op in the low byte. -/
def encX (op x : Nib) (sub : Byte) : Word := op ++ x ++ sub

/-- The word of an instruction (30_encoding.md R105). -/
def encode : Instr → Word
  | .cls => 0x00E0
  | .ret => 0x00EE
  | .sys nnn => encA 0x0 nnn
  | .jp nnn => encA 0x1 nnn
  | .call nnn => encA 0x2 nnn
  | .seImm x nn => encXNN 0x3 x nn
  | .sneImm x nn => encXNN 0x4 x nn
  | .seReg x y => encXYN 0x5 x y 0x0
  | .ldImm x nn => encXNN 0x6 x nn
  | .addImm x nn => encXNN 0x7 x nn
  | .ldReg x y => encXYN 0x8 x y 0x0
  | .orReg x y => encXYN 0x8 x y 0x1
  | .andReg x y => encXYN 0x8 x y 0x2
  | .xorReg x y => encXYN 0x8 x y 0x3
  | .addReg x y => encXYN 0x8 x y 0x4
  | .sub x y => encXYN 0x8 x y 0x5
  | .shr x y => encXYN 0x8 x y 0x6
  | .subn x y => encXYN 0x8 x y 0x7
  | .shl x y => encXYN 0x8 x y 0xE
  | .sneReg x y => encXYN 0x9 x y 0x0
  | .ldI nnn => encA 0xA nnn
  | .jpV0 nnn => encA 0xB nnn
  | .rnd x nn => encXNN 0xC x nn
  | .drw x y n => encXYN 0xD x y n
  | .skp x => encX 0xE x 0x9E
  | .sknp x => encX 0xE x 0xA1
  | .ldVxDt x => encX 0xF x 0x07
  | .ldVxK x => encX 0xF x 0x0A
  | .ldDtVx x => encX 0xF x 0x15
  | .ldStVx x => encX 0xF x 0x18
  | .addI x => encX 0xF x 0x1E
  | .ldF x => encX 0xF x 0x29
  | .ldB x => encX 0xF x 0x33
  | .ldMemVx x => encX 0xF x 0x55
  | .ldVxMem x => encX 0xF x 0x65

/-- The two bytes of a word as memory holds them, the high byte first (20_memory.md R72). -/
def bytesOfWord (w : Word) : List Byte := [w.extractLsb' 8 8, w.extractLsb' 0 8]

/-- The bytes of an instruction. -/
def encodeBytes (i : Instr) : List Byte := bytesOfWord (encode i)

/-- The row an instruction stands for: its number `#` in 30_encoding.md R105. -/
def Instr.rowIndex : Instr → Nat
  | .cls => 0
  | .ret => 1
  | .sys _ => 2
  | .jp _ => 3
  | .call _ => 4
  | .seImm _ _ => 5
  | .sneImm _ _ => 6
  | .seReg _ _ => 7
  | .ldImm _ _ => 8
  | .addImm _ _ => 9
  | .ldReg _ _ => 10
  | .orReg _ _ => 11
  | .andReg _ _ => 12
  | .xorReg _ _ => 13
  | .addReg _ _ => 14
  | .sub _ _ => 15
  | .shr _ _ => 16
  | .subn _ _ => 17
  | .shl _ _ => 18
  | .sneReg _ _ => 19
  | .ldI _ => 20
  | .jpV0 _ => 21
  | .rnd _ _ => 22
  | .drw _ _ _ => 23
  | .skp _ => 24
  | .sknp _ => 25
  | .ldVxDt _ => 26
  | .ldVxK _ => 27
  | .ldDtVx _ => 28
  | .ldStVx _ => 29
  | .addI _ => 30
  | .ldF _ => 31
  | .ldB _ => 32
  | .ldMemVx _ => 33
  | .ldVxMem _ => 34

/-- What the decoder reads from an instruction whose bits, numbered as spec/opcode_table.json numbers
them, are `w`. Every row is one 16-bit word whose bit 0 is the word's own, so the word is `w` (bits
above `nbits` zero), laid out big-endian in two bytes. -/
def decodeTableWord (nbits w : Nat) : Option Instr :=
  match decode (bytesOfWord (BitVec.ofNat 16 (w % 2 ^ nbits))) with
  | .ok (i, _) => some i
  | .error _ => none

end Sys2Proof
end

