-- ==== Sys2Proof/Machine/Operands.lean ====
section
/-! DEFINITION. Operand forms: how a field or a register becomes an address, a target, a coordinate, a
list of bytes (30_encoding.md R102). -/

namespace Sys2Proof.Machine

/-- `zext_16(NNN)` (30_encoding.md R102). -/
def addrWord (nnn : Addr) : Word := nnn.zeroExtend 16

/-- `zext_16(V)` (00_scope.md R14). -/
def byteWord (b : Byte) : Word := b.zeroExtend 16

/-- The target of JP V0: `zext_16(NNN) + zext_16(V[0])`, at most 0x10FE, so it does not wrap
(41_flow.md R176). -/
def State.offsetTarget (s : State) (nnn : Addr) : Word := addrWord nnn + byteWord (s.getV 0)

/-- `(I + zext_16(V[x])) mod 65536` (43_index_memory.md R232). -/
def State.indexPlus (s : State) (x : Nib) : Word := s.i + byteWord (s.getV x)

/-- `zext_16(FONT_BASE) + 5 * (b & 0x0F)` (43_index_memory.md R233). -/
def glyphAddr (base : Addr) (b : Byte) : Word := addrWord base + 5 * byteWord (b &&& 0x0F)

/-- Hundreds, tens and ones of a byte (43_index_memory.md R234). -/
def decimalDigits (b : Byte) : List Byte :=
  [BitVec.ofNat 8 (b.toNat / 100), BitVec.ofNat 8 (b.toNat / 10 % 10), BitVec.ofNat 8 (b.toNat % 10)]

/-- The address an `I`-based access starts at, exact (20_memory.md R74). -/
def State.indexAddr (s : State) : Nat := s.i.toNat

/-- `I + X + 1`: where FX55 and FX65 leave `I` (43_index_memory.md R235, R236). -/
def State.indexPast (s : State) (x : Nib) : Word := s.i + BitVec.ofNat 16 (x.toNat + 1)

/-- The start column `V[X] mod 64` (44_display.md R263). -/
def State.startCol (s : State) (x : Nib) : Nat := (s.getV x).toNat % Config.fbW

/-- The start row `V[Y] mod 32` (44_display.md R263). -/
def State.startRow (s : State) (y : Nib) : Nat := (s.getV y).toNat % Config.fbH

/-- `k <= 15 and Key[k]` (45_timer_input.md R293). -/
def State.keyPressed (s : State) (k : Byte) : Bool :=
  decide (k.toNat ≤ 15) && s.key (k.extractLsb' 0 4)

end Sys2Proof.Machine
end

