-- ==== Sys2Proof/Machine/Display.lean ====
section
/-! DEFINITION. Display instructions (44_display.md). -/

namespace Sys2Proof.Machine

/-- Draw one set sprite bit at `(px, py)`, which may lie past an edge (44_display.md R262, R264): under
`Clip` it is then not drawn, under `Wrap` it is drawn modulo the grid. The flag collects collisions
(R265). -/
def drawPixel (edge : DrawEdge) (px py : Nat) (d : FrameBuf × Bool) : FrameBuf × Bool :=
  if edge = .clip ∧ (px ≥ Config.fbW ∨ py ≥ Config.fbH) then d
  else
    (FrameBuf.flip d.1 (px % Config.fbW) (py % Config.fbH),
     d.2 || FrameBuf.get d.1 (px % Config.fbW) (py % Config.fbH))

/-- Draw one sprite row: bit 7 of the byte is the leftmost pixel (44_display.md R266). -/
def drawRow (edge : DrawEdge) (x0 py : Nat) (b : Byte) (d : FrameBuf × Bool) : FrameBuf × Bool :=
  (List.range 8).foldl (fun d j => if b.getLsbD (7 - j) then drawPixel edge (x0 + j) py d else d) d

/-- Draw sprite rows from row `py` down (44_display.md R262). -/
def drawRows (edge : DrawEdge) (x0 py : Nat) : List Byte → FrameBuf × Bool → FrameBuf × Bool
  | [], d => d
  | b :: bs, d => drawRows edge x0 (py + 1) bs (drawRow edge x0 py b d)

/-- CLS (44_display.md R261). -/
def execCls (s : State) : Result := .next ((s.setFb FrameBuf.clear).countDisplay)

/-- DRW (44_display.md R262). -/
def execDrw (x y n : Nib) (s : State) : Result :=
  match s.loadBytes s.indexAddr n.toNat with
  | .ok bs =>
    let d := drawRows s.params.drawEdge (s.startCol x) (s.startRow y) bs (s.fb, false)
    .next (((s.setFb d.1).setV vf (flagByte d.2)).countDisplay)
  | .error a => s.raiseIn .boundsData (encode (.drw x y n)) (some a)

end Sys2Proof.Machine
end

