-- ==== Sys2Proof/Machine/Flow.lean ====
section
/-! DEFINITION. Control flow instructions (41_flow.md). On entry `PC = ipc + 2`. -/

namespace Sys2Proof.Machine

/-- SYS: nothing (41_flow.md R170). -/
def execSys (_nnn : Addr) (s : State) : Result := .next s

/-- RET (41_flow.md R171): pop into `PC`; on an empty stack StackUnderflow, or a `DIAG` record, by
`RET_EMPTY_POLICY`. -/
def execRet (s : State) : Result :=
  match s.pop with
  | some (a, s') => .next (s'.setPc a)
  | none =>
    match s.params.retEmpty with
    | .fault => s.raiseIn .stackUnderflow (encode .ret) none
    | .ignoreReported => .next (s.addDiag .retEmpty s.ipc (encode .ret))

/-- JP (41_flow.md R172). -/
def execJp (nnn : Addr) (s : State) : Result := .next (s.setPc (addrWord nnn))

/-- CALL (41_flow.md R173): push the advanced `PC`, or StackOverflow with nothing changed. -/
def execCall (nnn : Addr) (s : State) : Result :=
  match s.push s.pc with
  | some s' => .next (s'.setPc (addrWord nnn))
  | none => s.raiseIn .stackOverflow (encode (.call nnn)) none

/-- SE imm (41_flow.md R174). -/
def execSeImm (x : Nib) (nn : Byte) (s : State) : Result := .next (s.skipIf (s.getV x == nn))

/-- SNE imm (41_flow.md R175). -/
def execSneImm (x : Nib) (nn : Byte) (s : State) : Result := .next (s.skipIf (s.getV x != nn))

/-- JP V0 (41_flow.md R176). -/
def execJpV0 (nnn : Addr) (s : State) : Result := .next (s.setPc (s.offsetTarget nnn))

/-- SE reg (41_flow.md R177). -/
def execSeReg (x y : Nib) (s : State) : Result := .next (s.skipIf (s.getV x == s.getV y))

/-- SNE reg (41_flow.md R178). -/
def execSneReg (x y : Nib) (s : State) : Result := .next (s.skipIf (s.getV x != s.getV y))

end Sys2Proof.Machine
end

