-- ==== Sys2Proof/Machine/Index.lean ====
section
/-! DEFINITION. Index register and memory instructions (43_index_memory.md). -/

namespace Sys2Proof.Machine

/-- LD I (43_index_memory.md R230). -/
def execLdI (nnn : Addr) (s : State) : Result := .next (s.setI (addrWord nnn))

/-- ADD I, no flag (43_index_memory.md R232). -/
def execAddI (x : Nib) (s : State) : Result := .next (s.setI (s.indexPlus x))

/-- LD F (43_index_memory.md R233). -/
def execLdF (x : Nib) (s : State) : Result := .next (s.setI (glyphAddr s.params.fontBase (s.getV x)))

/-- LD B: three digits at `I`, `I` unchanged (43_index_memory.md R234). -/
def execLdB (x : Nib) (s : State) : Result :=
  match s.storeBytes s.indexAddr (decimalDigits (s.getV x)) with
  | .ok s' => .next s'
  | .error a => s.raiseIn .boundsData (encode (.ldB x)) (some a)

/-- LD [I]: `V[0] .. V[X]` to memory, `I` past them (43_index_memory.md R235). -/
def execLdMemVx (x : Nib) (s : State) : Result :=
  match s.storeBytes s.indexAddr (s.getVs x) with
  | .ok s' => .next (s'.setI (s.indexPast x))
  | .error a => s.raiseIn .boundsData (encode (.ldMemVx x)) (some a)

/-- LD Vx, [I]: memory to `V[0] .. V[X]`, `I` past them (43_index_memory.md R236). -/
def execLdVxMem (x : Nib) (s : State) : Result :=
  match s.loadBytes s.indexAddr (x.toNat + 1) with
  | .ok bs => .next ((s.setVs bs).setI (s.indexPast x))
  | .error a => s.raiseIn .boundsData (encode (.ldVxMem x)) (some a)

end Sys2Proof.Machine
end

