-- ==== Sys2Proof/Machine/TimerInput.lean ====
section
/-! DEFINITION. Timer and key instructions (45_timer_input.md). -/

namespace Sys2Proof.Machine

/-- SKP (45_timer_input.md R293). -/
def execSkp (x : Nib) (s : State) : Result := .next (s.skipIf (s.keyPressed (s.getV x)))

/-- SKNP (45_timer_input.md R294). -/
def execSknp (x : Nib) (s : State) : Result := .next (s.skipIf (!s.keyPressed (s.getV x)))

/-- LD Vx, DT (45_timer_input.md R290). -/
def execLdVxDt (x : Nib) (s : State) : Result := .next (s.setV x s.dt)

/-- LD Vx, K: the wait begins; a Key event ends it (45_timer_input.md R295, R296). -/
def execLdVxK (x : Nib) (s : State) : Result := .next (s.setWait (some x))

/-- LD DT, Vx (45_timer_input.md R291). -/
def execLdDtVx (x : Nib) (s : State) : Result := .next (s.setDt (s.getV x))

/-- LD ST, Vx (45_timer_input.md R292). -/
def execLdStVx (x : Nib) (s : State) : Result := .next (s.setSt (s.getV x))

end Sys2Proof.Machine
end

