-- ==== Sys2Proof/Machine/Cycle.lean ====
section
/-! DEFINITION. One cycle of the execution loop (40_execution_loop.md R140 to R147). -/

namespace Sys2Proof.Machine

/-- The fetch-bounds check: `none` when `PC + 1 <= 0xFFF`, else the address the fault records
(40_execution_loop.md R140, R146). -/
def fetchFault (pc : Word) : Option Nat :=
  if pc.toNat + 1 > 0xFFF then some (max pc.toNat 0x1000) else none

/-- `(MEM[PC] << 8) | MEM[PC + 1]` (40_execution_loop.md R141). -/
def State.fetchWord (s : State) : Word :=
  wordOfBytes (s.readByte s.pc.toNat) (s.readByte (s.pc.toNat + 1))

/-- What a word that no entry matches does, `PC` already advanced (40_execution_loop.md R145). -/
def decodeFault (w : Word) (s : State) : State :=
  match s.params.decodeFault with
  | .fault => s.raise .decode s.ipc (some w) none
  | .skip => s.addDiag .decodeSkip s.ipc w

/-- Fetch, advance, decode, dispatch, execute (40_execution_loop.md R146). -/
def runCycle (s : State) : Result :=
  match fetchFault s.pc with
  | some a => .next (s.raise .boundsFetch s.pc none (some a))
  | none =>
    match decodeWord s.fetchWord with
    | .ok i => exec i (s.setPc (s.pc + 2))
    | .error _ => .next (decodeFault s.fetchWord (s.setPc (s.pc + 2)))

/-- A `Cycle` event: a cycle runs only when `EXEC = Running` and `WAIT = none`; in any other state there
is no step, and the model stops by name (40_execution_loop.md R147, log 5). -/
def cycle (s : State) : Result :=
  match s.exec, s.wait with
  | .running, none => runCycle s
  | .running, some _ => .fault .cycleInKeyWait
  | .faulted, _ => .fault .cycleWhenFaulted
  | .halted, _ => .fault .cycleWhenHalted

end Sys2Proof.Machine
end

