-- ==== Sys2Proof/Machine/Events.lean ====
section
/-! DEFINITION. The events other than `Cycle`, and the delivery of an event (60_exceptions.md R340,
R350, R360, R362; 70_reset_and_hazards.md R380 to R385). -/

namespace Sys2Proof.Machine

/-- A timer less `n` ticks, never below 0 (60_exceptions.md R340). -/
def timerMinus (t : Byte) (n : Nat) : Byte := BitVec.ofNat 8 (t.toNat - n)

/-- The timer prescaler over `dt` nanoseconds (60_exceptions.md R340); frozen unless `EXEC = Running`
(R341). -/
def State.elapse (s : State) (dt : Nat) : State :=
  let total := s.tacc + 60 * dt
  match s.exec with
  | .running =>
    s.setTimers (total % Config.tickUnit) (timerMinus s.dt (total / Config.tickUnit))
      (timerMinus s.st (total / Config.tickUnit))
  | .faulted | .halted => s

/-- The latch after key `k` is pressed or released (60_exceptions.md R350, R351). -/
def State.latch (s : State) (k : Nib) (p : Bool) : State :=
  let s1 := s.setKey k p
  if p then s1.setLast (some k) else if s1.allReleased then s1.setLast none else s1

/-- A `Key(k, p)` event (60_exceptions.md R350): the latch, and the end of a key wait when the key
was not pressed before (45_timer_input.md R296). -/
def State.keyEvent (s : State) (k : Nib) (p : Bool) : State :=
  match s.wait with
  | some x =>
    if p && !s.key k then ((s.latch k p).setV x (k.zeroExtend 8)).setWait none else s.latch k p
  | none => s.latch k p

/-- A `Stop` event (60_exceptions.md R362, 45_timer_input.md R297). -/
def State.stop (s : State) : State :=
  match s.exec with
  | .running => (s.setExec .halted).setWait none
  | .faulted | .halted => s

/-- The font preload (70_reset_and_hazards.md R383). -/
def State.preloadFont (s : State) : State :=
  if s.params.fontPreload then
    s.setMem (s.mem.writeList s.params.fontBase.toNat s.params.fontGlyphs.toList)
  else s

/-- A `Load(img)` that is no Load Error: reset, font, image (70_reset_and_hazards.md R385). -/
def State.loadImage (s : State) (img : List Byte) : State :=
  let s1 := s.toReset.preloadFont
  s1.setMem (s1.mem.writeList Config.loadBase img)

/-- A `Load(img)` event: a Load Error is refused by name and changes nothing (70_reset_and_hazards.md
R384, log 6), and so are parameters that R383 rules out (log 7). -/
def loadEvent (img : List Byte) (s : State) : Result :=
  if img.length = 0 then .refused .loadErrorEmpty
  else if img.length > Config.maxImage then .refused .loadErrorTooLong
  else if s.params.fontPreload ∧ ¬ s.params.FontFits then .refused .fontBaseOutOfRange
  else .next (s.loadImage img)

/-- The effect of one event (60_exceptions.md R360). -/
def deliver (e : Event) (s : State) : Result :=
  match e with
  | .cycle => cycle s
  | .time dt => .next (s.elapse dt)
  | .key k p => .next (s.keyEvent k p)
  | .stop => .next s.stop
  | .reset => .next s.toReset
  | .load img => loadEvent img s

/-- The event the machine takes next: the first pending one, and `Cycle` when the environment has
nothing else to send (log 1). -/
def State.nextEvent (s : State) : Event := s.pending.headD .cycle

/-- The machine with that event taken off the list. -/
def State.dropEvent (s : State) : State := s.setPending s.pending.tail

end Sys2Proof.Machine
end

