-- ==== Sys2Proof/Machine/Step.lean ====
section
/-! DEFINITION. One step: the machine takes exactly one event (60_exceptions.md R360). -/

namespace Sys2Proof.Machine

/-- Take the next event. -/
def step (s : State) : Host.Outcome State Fault Refusal := deliver s.nextEvent s.dropEvent

/-- `s` with an instruction's word where the next step fetches it. A `Cycle` is made the next event if
another one was pending, the loop is made to run, and `PC` moves to the entry point only if it points
past the last word of memory; at reset none of this changes anything but the two bytes (log 2). -/
def State.withFetchWord (s : State) (nbits w : Nat) : State :=
  let word : Word := BitVec.ofNat 16 (w % 2 ^ nbits)
  let pc : Word := if s.pc.toNat + 1 > 0xFFF then 0x200 else s.pc
  { s with
    pc := pc
    exec := .running
    wait := none
    pending := if s.nextEvent = .cycle then s.pending else .cycle :: s.pending
    mem := s.mem.writeList pc.toNat (bytesOfWord word) }

end Sys2Proof.Machine
end

