-- ==== Sys2Proof/Safety.lean ====
section
/-! DEFINITION. The terms claims use: the invariant of a run, what an instruction leaves unchanged, how
a row is encoded, and the sprite bit a draw aims at a cell. -/

namespace Sys2Proof.Machine

/-! ## The invariant -/

/-- A fault record's shape (60_exceptions.md R320): a word except for BoundsFetch, an address for the two
Bounds causes only, and that address outside memory. -/
def FaultRecord.Shaped (f : FaultRecord) : Prop :=
  (f.word = none ↔ f.cause = .boundsFetch) ∧
  (f.addr ≠ none ↔ f.cause = .boundsFetch ∨ f.cause = .boundsData) ∧
  ∀ a, f.addr = some a → Config.memSize ≤ a

/-- What every run from reset keeps: the ranges of 10_state.md R49 (R33 for `PC`, R35 for the stack, R38
for `TACC`, R42 to R44 for the control state, R40 and 60_exceptions.md R351 for the latch) and the
canonical form of memory. -/
structure State.Inv (s : State) : Prop where
  mem : s.mem.wf
  stackLength : s.stack.length ≤ Config.stackDepth
  stackEntries : ∀ a ∈ s.stack, a.toNat ≤ 0x1000
  pc : s.pc.toNat ≤ 0x10FE
  tacc : s.tacc < Config.tickUnit
  faulted : s.exec = .faulted ↔ s.fault ≠ none
  record : ∀ f, s.fault = some f → f.Shaped
  waiting : s.wait ≠ none → s.exec = .running
  latch : s.last = none ↔ ∀ k, s.key k = false
  font : s.params.FontFits

/-! ## Frames -/

/-- The fields of the state, by name. -/
inductive Field where
  | v | i | pc | stack | dt | st | tacc | fb | keys | last | exec | fault | wait | dispEv | diag | mem
  | params | draws | pending
  deriving DecidableEq, Repr

/-- Two states agree on a field; on memory, that every byte reads the same. -/
def Agree (s t : State) : Field → Prop
  | .v => ∀ k, t.getV k = s.getV k
  | .i => t.i = s.i
  | .pc => t.pc = s.pc
  | .stack => t.stack = s.stack
  | .dt => t.dt = s.dt
  | .st => t.st = s.st
  | .tacc => t.tacc = s.tacc
  | .fb => t.fb = s.fb
  | .keys => ∀ k, t.key k = s.key k
  | .last => t.last = s.last
  | .exec => t.exec = s.exec
  | .fault => t.fault = s.fault
  | .wait => t.wait = s.wait
  | .dispEv => t.dispEv = s.dispEv
  | .diag => t.diag = s.diag
  | .mem => ∀ a, t.readByte a = s.readByte a
  | .params => t.params = s.params
  | .draws => t.draws = s.draws
  | .pending => t.pending = s.pending

/-- From `s` to `t` nothing changed but the named fields. -/
def OnlyChanged (changed : List Field) (s t : State) : Prop := ∀ f, f ∉ changed → Agree s t f

/-! ## Reset -/

/-- Everything 10_state.md R49 lists but memory is at its reset value. -/
def State.RegistersAtReset (t : State) : Prop :=
  (∀ k, t.getV k = 0) ∧ t.i = 0 ∧ t.pc = 0x200 ∧ t.stack = [] ∧ t.dt = 0 ∧ t.st = 0 ∧ t.tacc = 0 ∧
  (∀ cx cy, t.fbAt cx cy = false) ∧ (∀ k, t.key k = false) ∧ t.last = none ∧ t.exec = .running ∧
  t.fault = none ∧ t.wait = none ∧ t.dispEv = 0 ∧ t.diag = []

/-! ## Faults and sequences -/

/-- Entering `Faulted` with a record, and nothing else changed but what `also` names (60_exceptions.md
R325). -/
def FaultsWith (r : Result) (s : State) (f : FaultRecord) (also : List Field) : Prop :=
  ∃ t, r = .next t ∧ t.exec = .faulted ∧ t.fault = some f ∧ OnlyChanged (.exec :: .fault :: also) s t

/-- The one cause an instruction's own check can raise (60_exceptions.md R320, R321, R327). -/
def ownCause : Instr → Option Cause
  | .ret => some .stackUnderflow
  | .call _ => some .stackOverflow
  | .drw _ _ _ | .ldB _ | .ldMemVx _ | .ldVxMem _ => some .boundsData
  | .cls | .sys _ | .jp _ | .seImm _ _ | .sneImm _ _ | .seReg _ _ | .ldImm _ _ | .addImm _ _
  | .ldReg _ _ | .orReg _ _ | .andReg _ _ | .xorReg _ _ | .addReg _ _ | .sub _ _ | .shr _ _
  | .subn _ _ | .shl _ _ | .sneReg _ _ | .ldI _ | .jpV0 _ | .rnd _ _ | .skp _ | .sknp _ | .ldVxDt _
  | .ldVxK _ | .ldDtVx _ | .ldStVx _ | .addI _ | .ldF _ => none

/-- Instructions executed one after another, as long as each answers a next state. Each comes with the
value `PC` holds when it begins: its own address plus 2 (40_execution_loop.md R142), wherever the
program reached it. -/
def execAll : List (Word × Instr) → State → Result
  | [], s => .next s
  | (pc, i) :: is, s =>
    match exec i (s.setPc pc) with
    | .next t => execAll is t
    | .fault r => .fault r
    | .refused r => .refused r

/-- The byte at an address once these bytes stand at `I`, `I + 1`, ... and the rest of memory is as in
`s`. -/
def State.byteWithStored (s : State) (vs : List Byte) (a : Nat) : Byte :=
  if s.i.toNat ≤ a ∧ a < s.i.toNat + vs.length then vs.getD (a - s.i.toNat) 0 else s.readByte a

/-! ## Encodings -/

/-- Row `row` of the dispatch table has these opcode bits and mask, and every word that matches them,
the words of `shadow` apart (earlier rows take those), decodes to the instruction `mk` makes of the word's
fields (30_encoding.md R104, R105). -/
def EncodedAs (row : Nat) (bits mask : Word) (shadow : List Word) (mk : Fields → Instr) : Prop :=
  (dispatchTable[row]?).map (fun r => (r.bits, r.mask)) = some (bits, mask) ∧
  ∀ w, w &&& mask = bits → w ∉ shadow → decodeWord w = .ok (mk (fieldsOf w))

/-! ## Drawing -/

/-- How far `c` lies past the start `c0` on an axis of `size` cells: `none` when it lies before the start
and nothing wraps (44_display.md R264). -/
def axisOffset (edge : DrawEdge) (size c0 c : Nat) : Option Nat :=
  match edge with
  | .clip => if c0 ≤ c then some (c - c0) else none
  | .wrap => some ((c + size - c0) % size)

/-- The sprite bit a draw of `n` rows from `(x0, y0)` aims at cell `(cx, cy)`: bit `7 - j` of the byte
at `I + r`, for the cell `j < 8` columns and `r < n` rows past the start (44_display.md R262, R264,
R266). -/
def State.spriteBit (s : State) (x0 y0 n cx cy : Nat) : Bool :=
  match axisOffset s.params.drawEdge Config.fbW x0 cx, axisOffset s.params.drawEdge Config.fbH y0 cy with
  | some j, some r => decide (j < 8 ∧ r < n) && (s.readByte (s.i.toNat + r)).getLsbD (7 - j)
  | _, _ => false

/-- Some sprite bit of the draw hits a set cell (44_display.md R265). -/
def State.Collides (s : State) (x0 y0 n : Nat) : Prop :=
  ∃ cx < Config.fbW, ∃ cy < Config.fbH, s.spriteBit x0 y0 n cx cy = true ∧ s.fbAt cx cy = true

end Sys2Proof.Machine
end

