-- ==== Sys2Proof/Certificates/Slice0/Obligations.lean ====
section
/-! DEFINITION. The statements for the provers, from the spec's numbered rules. -/

open Sys2Proof Sys2Proof.Machine

/-! ## Encoding (30_encoding.md) -/

/-- 30_encoding.md R101: the five fields are the source's extractions. -/
def Obligations.FieldDecoderExtractsFiveFields : Prop :=
  ∀ w : Word,
    ((fieldsOf w).nnn.zeroExtend 16 = w &&& 0x0FFF) ∧
    ((fieldsOf w).nn.zeroExtend 16 = w &&& 0x00FF) ∧
    ((fieldsOf w).n.zeroExtend 16 = w &&& 0x000F) ∧
    ((fieldsOf w).x.zeroExtend 16 = (w &&& 0x0F00) >>> 8) ∧
    ((fieldsOf w).y.zeroExtend 16 = (w &&& 0x00F0) >>> 4)

/-- 30_encoding.md R104: 35 entries; the first that matches is dispatched, whatever comes after it; when
none matches the result is NoMatch, which names the word. -/
def Obligations.FirstMatchWins : Prop :=
  dispatchTable.length = 35 ∧
  (∀ (w : Word) (before after : List Row) (r : Row),
    dispatchTable = before ++ r :: after → w &&& r.mask = r.bits →
    (∀ e ∈ before, w &&& e.mask ≠ e.bits) → decodeWord w = .ok (r.handler (fieldsOf w))) ∧
  (∀ w : Word, (∀ e ∈ dispatchTable, w &&& e.mask ≠ e.bits) → decodeWord w = .error (.noMatch w))

/-- The words no entry matches are exactly the five classes of 30_encoding.md section 3, and only 0x00E0
and 0x00EE match two entries (the spec's own inferences, marked derived). -/
def Obligations.UnmatchedAndDoublyMatchedWords : Prop :=
  (∀ a b c d : Nib,
    decodeWord (a ++ b ++ c ++ d) = .error (.noMatch (a ++ b ++ c ++ d)) ↔
      (a = 0x5 ∧ d ≠ 0) ∨
      (a = 0x8 ∧ d ∈ [0x8#4, 0x9#4, 0xA#4, 0xB#4, 0xC#4, 0xD#4, 0xF#4]) ∨
      (a = 0x9 ∧ d ≠ 0) ∨
      (a = 0xE ∧ c ++ d ∉ [0x9E#8, 0xA1#8]) ∨
      (a = 0xF ∧ c ++ d ∉ [0x07#8, 0x0A#8, 0x15#8, 0x18#8, 0x1E#8, 0x29#8, 0x33#8, 0x55#8, 0x65#8])) ∧
  (∀ (w : Word) (m n : Fin dispatchTable.length), m < n →
    w &&& dispatchTable[m].mask = dispatchTable[m].bits →
    w &&& dispatchTable[n].mask = dispatchTable[n].bits →
    (m.val = 0 ∧ w = 0x00E0 ∨ m.val = 1 ∧ w = 0x00EE) ∧ n.val = 2)

/-- A few words written out from 30_encoding.md R105, one of every family. -/
def Obligations.SampleWordsDecode : Prop :=
  decodeWord 0x00E0 = .ok .cls ∧ decodeWord 0x00EE = .ok .ret ∧
  decodeWord 0x0123 = .ok (.sys 0x123) ∧ decodeWord 0x3342 = .ok (.seImm 0x3 0x42) ∧
  decodeWord 0x8126 = .ok (.shr 0x1 0x2) ∧ decodeWord 0xA2F0 = .ok (.ldI 0x2F0) ∧
  decodeWord 0xD015 = .ok (.drw 0x0 0x1 0x5) ∧ decodeWord 0xE1A1 = .ok (.sknp 0x1) ∧
  decodeWord 0xF20A = .ok (.ldVxK 0x2) ∧ decodeWord 0xF365 = .ok (.ldVxMem 0x3) ∧
  decodeWord 0x5121 = .error (.noMatch 0x5121)

/-- No bit of an encoding is dropped: every well-formed instruction, with every operand, is read back
from its word, and from its bytes whatever follows them. -/
def Obligations.EncodeThenDecode : Prop :=
  ∀ i : Instr, i.WellFormed = true →
    decodeWord (encode i) = .ok i ∧ ∀ rest, decode (encodeBytes i ++ rest) = .ok (i, rest)

/-- Every word that decodes is the word of the instruction it decodes to, which is well formed. -/
def Obligations.DecodeThenEncode : Prop :=
  ∀ (w : Word) (i : Instr), decodeWord w = .ok i → i.WellFormed = true ∧ encode i = w

/-! ## The execution loop (40_execution_loop.md) -/

/-- A step takes the next event, a Cycle when none is pending (log 1); a Cycle runs the instruction at
`PC` with `PC` advanced by 2 (40_execution_loop.md section 1). -/
def Obligations.StepRunsDecodedInstruction : Prop :=
  (∀ (s : State) (i : Instr), s.exec = .running → s.wait = none → s.nextEvent = .cycle →
    s.pc.toNat + 1 ≤ 0xFFF →
    decodeWord (s.readByte s.pc.toNat ++ s.readByte (s.pc.toNat + 1)) = .ok i →
    step s = exec i ((s.setPending s.pending.tail).setPc (s.pc + 2))) ∧
  (∀ (s : State) (e : Event) (rest : List Event), s.pending = e :: rest →
    step s = deliver e (s.setPending rest)) ∧
  (∀ s : State, s.pending = [] → step s = deliver .cycle s)

/-- 40_execution_loop.md R141, R142: a Cycle fetches big-endian, advances `PC` by 2 before dispatch, and the
advance happens even if the word then turns out to match no entry. -/
def Obligations.CycleFetchesAdvancesExecutes : Prop :=
  ∀ (s : State) (w : Word), s.exec = .running → s.wait = none → s.pc.toNat + 1 ≤ 0xFFF →
    w = ((s.readByte s.pc.toNat).zeroExtend 16 <<< 8) ||| (s.readByte (s.pc.toNat + 1)).zeroExtend 16 →
    (∀ i, decodeWord w = .ok i → deliver .cycle s = exec i (s.setPc (s.pc + 2))) ∧
    (∀ e, decodeWord w = .error e → ∃ t, deliver .cycle s = .next t ∧ t.pc = s.pc + 2)

/-- 40_execution_loop.md R140: the fetch-bounds check. -/
def Obligations.FetchOutOfBoundsFaults : Prop :=
  ∀ s : State, s.exec = .running → s.wait = none → s.pc.toNat + 1 > 0xFFF →
    FaultsWith (deliver .cycle s) s
      ⟨.boundsFetch, s.pc, none, some (if s.pc = 0xFFF then 0x1000 else s.pc.toNat)⟩ []

/-- 40_execution_loop.md R145: a word no entry matches faults or is skipped, by DECODE_FAULT_POLICY, whose
default is Fault. -/
def Obligations.UnmatchedWordFollowsPolicy : Prop :=
  State.reset.params.decodeFault = .fault ∧
  ∀ (s : State) (w : Word), s.exec = .running → s.wait = none → s.pc.toNat + 1 ≤ 0xFFF →
    w = s.readByte s.pc.toNat ++ s.readByte (s.pc.toNat + 1) → (∀ i, decodeWord w ≠ .ok i) →
    (s.params.decodeFault = .fault →
      FaultsWith (deliver .cycle s) (s.setPc (s.pc + 2)) ⟨.decode, s.pc, some w, none⟩ []) ∧
    (s.params.decodeFault = .skip →
      ∃ t, deliver .cycle s = .next t ∧ t.pc = s.pc + 2 ∧
        t.diag = s.diag ++ [⟨.decodeSkip, s.pc, w⟩] ∧ OnlyChanged [.pc, .diag] s t)

/-- 40_execution_loop.md R147: a Cycle is enabled exactly when `EXEC = Running` and `WAIT = none`; otherwise
the machine has no Cycle step. Only a reset (a Load begins with one) re-enters `Running`; a fresh press, a stop
and a reset lift the hold of a key wait. -/
def Obligations.CycleOnlyWhenEnabled : Prop :=
  ∀ s : State,
    ((∃ t, deliver .cycle s = .next t) ↔ s.exec = .running ∧ s.wait = none) ∧
    (∀ (e : Event) (t : State), s.exec ≠ .running → deliver e s = .next t → t.exec = .running →
      e = .reset ∨ ∃ img, e = .load img) ∧
    (s.exec = .running → s.wait ≠ none →
      (∀ k, s.key k = false → ∃ t, deliver (.key k true) s = .next t ∧ t.wait = none ∧ t.exec = .running) ∧
      (∃ t, deliver .stop s = .next t ∧ t.wait = none) ∧
      (∃ t, deliver .reset s = .next t ∧ t.wait = none))

/-- The names under which the model stops where there is no Cycle step (log 5). -/
def Obligations.DisabledCycleStopsByName : Prop :=
  ∀ s : State,
    (s.exec = .faulted → deliver .cycle s = .fault .cycleWhenFaulted) ∧
    (s.exec = .halted → deliver .cycle s = .fault .cycleWhenHalted) ∧
    (s.exec = .running ∧ s.wait ≠ none → deliver .cycle s = .fault .cycleInKeyWait)

/-- 40_execution_loop.md R150: the transitions of `EXEC`, in every state the invariant allows; a cycle
raised a fault exactly when `FAULT` is recorded. -/
def Obligations.ExecutionStateTransitions : Prop :=
  ∀ (s t : State) (e : Event), s.Inv → deliver e s = .next t →
    match e with
    | .reset => t.exec = .running
    | .load _ => t.exec = .running
    | .cycle => s.exec = .running ∧ (t.exec = .running ∨ t.exec = .faulted) ∧
        (t.exec = .faulted ↔ t.fault ≠ none)
    | .stop => t.exec = if s.exec = .running then .halted else s.exec
    | .time _ => t.exec = s.exec
    | .key _ _ => t.exec = s.exec

/-! ## Control flow (41_flow.md) -/

/-- 41_flow.md R170. -/
def Obligations.SysDoesNothing : Prop :=
  EncodedAs 2 0x0000 0xF000 [0x00E0, 0x00EE] (fun f => .sys f.nnn) ∧
  ∀ (s : State) (nnn : Addr), exec (.sys nnn) s = .next s

/-- 41_flow.md R171. -/
def Obligations.RetPopsProgramCounter : Prop :=
  EncodedAs 1 0x00EE 0xFFFF [] (fun _ => .ret) ∧
  State.reset.params.retEmpty = .fault ∧
  (∀ (s : State) (below : List Word) (a : Word), s.stack = below ++ [a] →
    ∃ t, exec .ret s = .next t ∧ t.pc = a ∧ t.stack = below ∧ OnlyChanged [.pc, .stack] s t) ∧
  (∀ s : State, s.stack = [] → s.params.retEmpty = .fault →
    FaultsWith (exec .ret s) s ⟨.stackUnderflow, s.pc - 2, some 0x00EE, none⟩ []) ∧
  (∀ s : State, s.stack = [] → s.params.retEmpty = .ignoreReported →
    ∃ t, exec .ret s = .next t ∧ t.diag = s.diag ++ [⟨.retEmpty, s.pc - 2, 0x00EE⟩] ∧
      OnlyChanged [.diag] s t)

/-- 41_flow.md R172. -/
def Obligations.JumpSetsProgramCounter : Prop :=
  EncodedAs 3 0x1000 0xF000 [] (fun f => .jp f.nnn) ∧
  ∀ (s : State) (nnn : Addr),
    ∃ t, exec (.jp nnn) s = .next t ∧ t.pc = nnn.zeroExtend 16 ∧ OnlyChanged [.pc] s t

/-- 41_flow.md R173. -/
def Obligations.CallPushesAndJumps : Prop :=
  EncodedAs 4 0x2000 0xF000 [] (fun f => .call f.nnn) ∧
  (∀ (s : State) (nnn : Addr), s.stack.length < 16 →
    ∃ t, exec (.call nnn) s = .next t ∧ t.pc = nnn.zeroExtend 16 ∧ t.stack = s.stack ++ [s.pc] ∧
      OnlyChanged [.pc, .stack] s t) ∧
  (∀ (s : State) (nnn : Addr), 16 ≤ s.stack.length →
    FaultsWith (exec (.call nnn) s) s ⟨.stackOverflow, s.pc - 2, some (0x2#4 ++ nnn), none⟩ [])

/-- 41_flow.md R174, R175, R177, R178, with skip as R180 has it. -/
def Obligations.SkipsCompareAndStepOver : Prop :=
  EncodedAs 5 0x3000 0xF000 [] (fun f => .seImm f.x f.nn) ∧
  EncodedAs 6 0x4000 0xF000 [] (fun f => .sneImm f.x f.nn) ∧
  EncodedAs 7 0x5000 0xF00F [] (fun f => .seReg f.x f.y) ∧
  EncodedAs 19 0x9000 0xF00F [] (fun f => .sneReg f.x f.y) ∧
  ∀ (s : State) (x y : Nib) (nn : Byte),
    (∃ t, exec (.seImm x nn) s = .next t ∧ OnlyChanged [.pc] s t ∧
      t.pc = if s.getV x = nn then s.pc + 2 else s.pc) ∧
    (∃ t, exec (.sneImm x nn) s = .next t ∧ OnlyChanged [.pc] s t ∧
      t.pc = if s.getV x = nn then s.pc else s.pc + 2) ∧
    (∃ t, exec (.seReg x y) s = .next t ∧ OnlyChanged [.pc] s t ∧
      t.pc = if s.getV x = s.getV y then s.pc + 2 else s.pc) ∧
    (∃ t, exec (.sneReg x y) s = .next t ∧ OnlyChanged [.pc] s t ∧
      t.pc = if s.getV x = s.getV y then s.pc else s.pc + 2)

/-- 41_flow.md R176: an exact sum that does not wrap at 12 bits. -/
def Obligations.JumpWithOffsetAddsV0 : Prop :=
  EncodedAs 21 0xB000 0xF000 [] (fun f => .jpV0 f.nnn) ∧
  ∀ (s : State) (nnn : Addr),
    ∃ t, exec (.jpV0 nnn) s = .next t ∧ t.pc.toNat = nnn.toNat + (s.getV 0).toNat ∧
      OnlyChanged [.pc] s t

/-! ## Registers and arithmetic (42_alu.md) -/

/-- 42_alu.md R200, R201. -/
def Obligations.LoadAndAddImmediate : Prop :=
  EncodedAs 8 0x6000 0xF000 [] (fun f => .ldImm f.x f.nn) ∧
  EncodedAs 9 0x7000 0xF000 [] (fun f => .addImm f.x f.nn) ∧
  ∀ (s : State) (x : Nib) (nn : Byte),
    (∃ t, exec (.ldImm x nn) s = .next t ∧ OnlyChanged [.v] s t ∧
      ∀ k, t.getV k = if k = x then nn else s.getV k) ∧
    (∃ t, exec (.addImm x nn) s = .next t ∧ OnlyChanged [.v] s t ∧
      ∀ k, t.getV k =
        if k = x then BitVec.ofNat 8 (((s.getV x).toNat + nn.toNat) % 256) else s.getV k)

/-- 42_alu.md R202, R203, R204, R205: no flag is written. -/
def Obligations.CopyAndLogicWriteNoFlag : Prop :=
  EncodedAs 10 0x8000 0xF00F [] (fun f => .ldReg f.x f.y) ∧
  EncodedAs 11 0x8001 0xF00F [] (fun f => .orReg f.x f.y) ∧
  EncodedAs 12 0x8002 0xF00F [] (fun f => .andReg f.x f.y) ∧
  EncodedAs 13 0x8003 0xF00F [] (fun f => .xorReg f.x f.y) ∧
  ∀ (s : State) (x y : Nib),
    (∃ t, exec (.ldReg x y) s = .next t ∧ OnlyChanged [.v] s t ∧
      ∀ k, t.getV k = if k = x then s.getV y else s.getV k) ∧
    (∃ t, exec (.orReg x y) s = .next t ∧ OnlyChanged [.v] s t ∧
      ∀ k, t.getV k = if k = x then s.getV x ||| s.getV y else s.getV k) ∧
    (∃ t, exec (.andReg x y) s = .next t ∧ OnlyChanged [.v] s t ∧
      ∀ k, t.getV k = if k = x then s.getV x &&& s.getV y else s.getV k) ∧
    (∃ t, exec (.xorReg x y) s = .next t ∧ OnlyChanged [.v] s t ∧
      ∀ k, t.getV k = if k = x then s.getV x ^^^ s.getV y else s.getV k)

/-- 42_alu.md R206, and R213 for the order of the writes. -/
def Obligations.AddRegistersSetsCarry : Prop :=
  EncodedAs 14 0x8004 0xF00F [] (fun f => .addReg f.x f.y) ∧
  ∀ (s : State) (x y : Nib),
    ∃ t, exec (.addReg x y) s = .next t ∧ OnlyChanged [.v] s t ∧
      ∀ k, t.getV k =
        if k = 15 then (if (s.getV x).toNat + (s.getV y).toNat > 0xFF then 1 else 0)
        else if k = x then BitVec.ofNat 8 (((s.getV x).toNat + (s.getV y).toNat) % 256)
        else s.getV k

/-- 42_alu.md R207, R209, and R213 for the order of the writes. -/
def Obligations.SubtractSetsNoBorrow : Prop :=
  EncodedAs 15 0x8005 0xF00F [] (fun f => .sub f.x f.y) ∧
  EncodedAs 17 0x8007 0xF00F [] (fun f => .subn f.x f.y) ∧
  ∀ (s : State) (x y : Nib),
    (∃ t, exec (.sub x y) s = .next t ∧ OnlyChanged [.v] s t ∧
      ∀ k, t.getV k =
        if k = 15 then (if (s.getV x).toNat ≥ (s.getV y).toNat then 1 else 0)
        else if k = x then
          BitVec.ofInt 8 ((((s.getV x).toNat : Int) - ((s.getV y).toNat : Int)) % 256)
        else s.getV k) ∧
    (∃ t, exec (.subn x y) s = .next t ∧ OnlyChanged [.v] s t ∧
      ∀ k, t.getV k =
        if k = 15 then (if (s.getV y).toNat ≥ (s.getV x).toNat then 1 else 0)
        else if k = x then
          BitVec.ofInt 8 ((((s.getV y).toNat : Int) - ((s.getV x).toNat : Int)) % 256)
        else s.getV k)

/-- 42_alu.md R208, R210, and R213 for the order of the writes. -/
def Obligations.ShiftsWriteBothRegisters : Prop :=
  EncodedAs 16 0x8006 0xF00F [] (fun f => .shr f.x f.y) ∧
  EncodedAs 18 0x800E 0xF00F [] (fun f => .shl f.x f.y) ∧
  ∀ (s : State) (x y : Nib),
    (∃ t, exec (.shr x y) s = .next t ∧ OnlyChanged [.v] s t ∧
      ∀ k, t.getV k =
        if k = 15 then BitVec.ofNat 8 ((s.getV y).toNat % 2)
        else if k = x ∨ k = y then BitVec.ofNat 8 ((s.getV y).toNat / 2)
        else s.getV k) ∧
    (∃ t, exec (.shl x y) s = .next t ∧ OnlyChanged [.v] s t ∧
      ∀ k, t.getV k =
        if k = 15 then BitVec.ofNat 8 ((s.getV y).toNat / 128)
        else if k = x ∨ k = y then BitVec.ofNat 8 ((s.getV y).toNat * 2 % 256)
        else s.getV k)

/-- 42_alu.md R211: some draw, masked; nothing else of the spec's state changes (`draws` is the model's
own count, log 4). -/
def Obligations.RandomByteIsMasked : Prop :=
  EncodedAs 22 0xC000 0xF000 [] (fun f => .rnd f.x f.nn) ∧
  ∀ (s : State) (x : Nib) (nn : Byte),
    ∃ t, exec (.rnd x nn) s = .next t ∧ OnlyChanged [.v, .draws] s t ∧
      ∃ r : Byte, ∀ k, t.getV k = if k = x then r &&& nn else s.getV k

/-- The model's choice for 42_alu.md section 2 (RND), log 4: the draw is the next free value, and each
draw is taken once. -/
def Obligations.RandomDrawIsNextFreeValue : Prop :=
  ∀ (s : State) (x : Nib),
    ∃ t, exec (.rnd x 0xFF) s = .next t ∧ t.getV x = Config.freeDraw s.draws ∧ t.draws = s.draws + 1

/-! ## Index and memory (43_index_memory.md) -/

/-- 43_index_memory.md R230, R232, R233. -/
def Obligations.IndexLoadsAndAdds : Prop :=
  EncodedAs 20 0xA000 0xF000 [] (fun f => .ldI f.nnn) ∧
  EncodedAs 30 0xF01E 0xF0FF [] (fun f => .addI f.x) ∧
  EncodedAs 31 0xF029 0xF0FF [] (fun f => .ldF f.x) ∧
  ∀ (s : State) (x : Nib) (nnn : Addr),
    (∃ t, exec (.ldI nnn) s = .next t ∧ OnlyChanged [.i] s t ∧ t.i.toNat = nnn.toNat) ∧
    (∃ t, exec (.addI x) s = .next t ∧ OnlyChanged [.i] s t ∧
      t.i.toNat = (s.i.toNat + (s.getV x).toNat) % 65536) ∧
    (∃ t, exec (.ldF x) s = .next t ∧ OnlyChanged [.i] s t ∧
      t.i.toNat = s.params.fontBase.toNat + 5 * ((s.getV x).toNat % 16))

/-- 43_index_memory.md R234. -/
def Obligations.DecimalDigitsStored : Prop :=
  EncodedAs 32 0xF033 0xF0FF [] (fun f => .ldB f.x) ∧
  (∀ (s : State) (x : Nib), s.mem.wf → s.indexAddr + 2 < 4096 →
    ∃ t, exec (.ldB x) s = .next t ∧ OnlyChanged [.mem] s t ∧
      ∀ a, t.readByte a =
        if a = s.indexAddr then BitVec.ofNat 8 ((s.getV x).toNat / 100)
        else if a = s.indexAddr + 1 then BitVec.ofNat 8 ((s.getV x).toNat / 10 % 10)
        else if a = s.indexAddr + 2 then BitVec.ofNat 8 ((s.getV x).toNat % 10)
        else s.readByte a) ∧
  (∀ (s : State) (x : Nib), s.indexAddr + 2 ≥ 4096 →
    FaultsWith (exec (.ldB x) s) s
      ⟨.boundsData, s.pc - 2, some (0xF#4 ++ x ++ 0x33#8), some (max s.indexAddr 4096)⟩ [])

/-- 43_index_memory.md R235. -/
def Obligations.RegistersStoredToMemory : Prop :=
  EncodedAs 33 0xF055 0xF0FF [] (fun f => .ldMemVx f.x) ∧
  (∀ (s : State) (x : Nib), s.mem.wf → s.indexAddr + x.toNat < 4096 →
    ∃ t, exec (.ldMemVx x) s = .next t ∧ OnlyChanged [.mem, .i] s t ∧
      t.i.toNat = s.indexAddr + x.toNat + 1 ∧
      ∀ a, t.readByte a =
        if s.indexAddr ≤ a ∧ a ≤ s.indexAddr + x.toNat then
          s.getV (BitVec.ofNat 4 (a - s.indexAddr))
        else s.readByte a) ∧
  (∀ (s : State) (x : Nib), s.indexAddr + x.toNat ≥ 4096 →
    FaultsWith (exec (.ldMemVx x) s) s
      ⟨.boundsData, s.pc - 2, some (0xF#4 ++ x ++ 0x55#8), some (max s.indexAddr 4096)⟩ [])

/-- 43_index_memory.md R236. -/
def Obligations.RegistersLoadedFromMemory : Prop :=
  EncodedAs 34 0xF065 0xF0FF [] (fun f => .ldVxMem f.x) ∧
  (∀ (s : State) (x : Nib), s.indexAddr + x.toNat < 4096 →
    ∃ t, exec (.ldVxMem x) s = .next t ∧ OnlyChanged [.v, .i] s t ∧
      t.i.toNat = s.indexAddr + x.toNat + 1 ∧
      ∀ k, t.getV k = if k.toNat ≤ x.toNat then s.readByte (s.indexAddr + k.toNat) else s.getV k) ∧
  (∀ (s : State) (x : Nib), s.indexAddr + x.toNat ≥ 4096 →
    FaultsWith (exec (.ldVxMem x) s) s
      ⟨.boundsData, s.pc - 2, some (0xF#4 ++ x ++ 0x65#8), some (max s.indexAddr 4096)⟩ [])

/-! ## Display (44_display.md) -/

/-- 44_display.md R261. -/
def Obligations.ClearScreenClearsEveryCell : Prop :=
  EncodedAs 0 0x00E0 0xFFFF [] (fun _ => .cls) ∧
  ∀ s : State,
    ∃ t, exec .cls s = .next t ∧ OnlyChanged [.fb, .dispEv] s t ∧ t.dispEv = s.dispEv + 1 ∧
      ∀ cx cy, t.fbAt cx cy = false

/-- 44_display.md R262 to R266: each cell is XORed with the sprite bit aimed at it, under either edge
policy, of which Clip is the default; `VF` is the collision flag; out of bounds nothing is drawn. -/
def Obligations.DrawXorsSprite : Prop :=
  EncodedAs 23 0xD000 0xF000 [] (fun f => .drw f.x f.y f.n) ∧
  State.reset.params.drawEdge = .clip ∧
  (∀ (s : State) (x y n : Nib), n = 0 ∨ s.indexAddr + n.toNat ≤ 4096 →
    ∃ t, exec (.drw x y n) s = .next t ∧ OnlyChanged [.v, .fb, .dispEv] s t ∧
      t.dispEv = s.dispEv + 1 ∧
      (∀ k, k ≠ 15 → t.getV k = s.getV k) ∧
      (s.Collides ((s.getV x).toNat % 64) ((s.getV y).toNat % 32) n.toNat → t.getV 15 = 1) ∧
      (¬ s.Collides ((s.getV x).toNat % 64) ((s.getV y).toNat % 32) n.toNat → t.getV 15 = 0) ∧
      ∀ cx < 64, ∀ cy < 32, t.fbAt cx cy =
        (s.fbAt cx cy ^^ s.spriteBit ((s.getV x).toNat % 64) ((s.getV y).toNat % 32) n.toNat cx cy)) ∧
  (∀ (s : State) (x y n : Nib), n ≠ 0 → s.indexAddr + n.toNat > 4096 →
    FaultsWith (exec (.drw x y n) s) s
      ⟨.boundsData, s.pc - 2, some (0xD#4 ++ x ++ y ++ n), some (max s.indexAddr 4096)⟩ [])

/-- Drawing the same sprite twice restores every cell, and the second draw reports 1 if the first drew
any set bit that was not set before, 0 if the first changed nothing (44_display.md, on drawing twice:
the spec's own inference). The second draw is at the same coordinates: where `X` or `Y` is `VF`, which the
first draw writes, the hypotheses say so. -/
def Obligations.DrawingTwiceRestores : Prop :=
  ∀ (s t : State) (x y n : Nib), (n = 0 ∨ s.indexAddr + n.toNat ≤ 4096) →
    exec (.drw x y n) s = .next t →
    (t.getV x).toNat % 64 = (s.getV x).toNat % 64 → (t.getV y).toNat % 32 = (s.getV y).toNat % 32 →
    ∃ u, exec (.drw x y n) t = .next u ∧ (∀ cx < 64, ∀ cy < 32, u.fbAt cx cy = s.fbAt cx cy) ∧
      ((∃ cx < 64, ∃ cy < 32, s.fbAt cx cy = false ∧ t.fbAt cx cy = true) → u.getV 15 = 1) ∧
      ((∀ cx < 64, ∀ cy < 32, t.fbAt cx cy = s.fbAt cx cy) → u.getV 15 = 0)

/-! ## Timers and keys (45_timer_input.md) -/

/-- 45_timer_input.md R290, R291, R292; `TACC` is unchanged by the two writes, `sound_on` follows `ST` at
once. -/
def Obligations.TimersReadAndSet : Prop :=
  EncodedAs 26 0xF007 0xF0FF [] (fun f => .ldVxDt f.x) ∧
  EncodedAs 28 0xF015 0xF0FF [] (fun f => .ldDtVx f.x) ∧
  EncodedAs 29 0xF018 0xF0FF [] (fun f => .ldStVx f.x) ∧
  ∀ (s : State) (x : Nib),
    (∃ t, exec (.ldVxDt x) s = .next t ∧ OnlyChanged [.v] s t ∧
      ∀ k, t.getV k = if k = x then s.dt else s.getV k) ∧
    (∃ t, exec (.ldDtVx x) s = .next t ∧ OnlyChanged [.dt] s t ∧ t.dt = s.getV x) ∧
    (∃ t, exec (.ldStVx x) s = .next t ∧ OnlyChanged [.st] s t ∧ t.st = s.getV x ∧
      (t.soundOn = true ↔ s.getV x ≠ 0))

/-- 45_timer_input.md R293, R294: an index above 15 names no key. -/
def Obligations.KeySkipsReadLatch : Prop :=
  EncodedAs 24 0xE09E 0xF0FF [] (fun f => .skp f.x) ∧
  EncodedAs 25 0xE0A1 0xF0FF [] (fun f => .sknp f.x) ∧
  ∀ (s : State) (x : Nib),
    (∃ t, exec (.skp x) s = .next t ∧ OnlyChanged [.pc] s t ∧
      t.pc = if (s.getV x).toNat ≤ 15 ∧ s.key (BitVec.ofNat 4 (s.getV x).toNat) = true
        then s.pc + 2 else s.pc) ∧
    (∃ t, exec (.sknp x) s = .next t ∧ OnlyChanged [.pc] s t ∧
      t.pc = if (s.getV x).toNat ≤ 15 ∧ s.key (BitVec.ofNat 4 (s.getV x).toNat) = true
        then s.pc else s.pc + 2)

/-- 45_timer_input.md R295: the wait begins, a held key does not end it, and until a Key event, a Stop, a
Reset or a Load no cycle runs. -/
def Obligations.KeyWaitBegins : Prop :=
  EncodedAs 27 0xF00A 0xF0FF [] (fun f => .ldVxK f.x) ∧
  ∀ (s : State) (x : Nib),
    ∃ t, exec (.ldVxK x) s = .next t ∧ OnlyChanged [.wait] s t ∧ t.wait = some x ∧
      (∀ u, deliver .cycle t ≠ .next u) ∧
      ∀ k, s.key k = true → ∃ u, deliver (.key k true) t = .next u ∧ u.wait = some x

/-! ## Events (60_exceptions.md, 70_reset_and_hazards.md) -/

/-- 60_exceptions.md R350, R351 and 45_timer_input.md R296: the latch, and the end of a key wait. -/
def Obligations.KeyEventUpdatesLatchAndEndsWait : Prop :=
  ∀ (s : State) (k : Nib) (p : Bool),
    ∃ t, deliver (.key k p) s = .next t ∧ OnlyChanged [.v, .keys, .last, .wait] s t ∧
      (∀ j, t.key j = if j = k then p else s.key j) ∧
      (p = true → t.last = some k) ∧
      (p = false → (∀ j, t.key j = false) → t.last = none) ∧
      (p = false → (∃ j, t.key j = true) → t.last = s.last) ∧
      (p = true ∧ s.key k = false → t.wait = none ∧
        ∀ j, t.getV j = if s.wait = some j then k.zeroExtend 8 else s.getV j) ∧
      (¬(p = true ∧ s.key k = false) → t.wait = s.wait ∧ ∀ j, t.getV j = s.getV j)

/-- 60_exceptions.md R362 and 45_timer_input.md R297: a stop halts a running machine and cancels a wait, as a
reset does; nothing else leads into `Halted`. -/
def Obligations.StopHaltsAndCancelsWait : Prop :=
  ∀ s : State,
    (s.exec = .running →
      ∃ t, deliver .stop s = .next t ∧ t.exec = .halted ∧ t.wait = none ∧
        OnlyChanged [.exec, .wait] s t) ∧
    (s.exec ≠ .running → deliver .stop s = .next s) ∧
    (∀ (e : Event) (t : State), s.exec ≠ .halted → deliver e s = .next t → t.exec = .halted →
      e = .stop) ∧
    (∃ t, deliver .reset s = .next t ∧ t.wait = none)

/-- 10_state.md R49 and 70_reset_and_hazards.md R380: from any state a Reset gives the reset values, and
the machine's reset state has them; nothing but a reset (a Load begins with one) leaves `Faulted` or
`Halted`. -/
def Obligations.ResetGivesResetValues : Prop :=
  (State.reset.RegistersAtReset ∧ ∀ a, State.reset.readByte a = 0) ∧
  ∀ s : State,
    (∃ t, deliver .reset s = .next t ∧ t.RegistersAtReset ∧ ∀ a, t.readByte a = 0) ∧
    (∀ (e : Event) (t : State), s.exec ≠ .running → deliver e s = .next t → t.exec ≠ s.exec →
      e = .reset ∨ ∃ img, e = .load img)

/-- 70_reset_and_hazards.md R383, R385: the reset values, the font when it is preloaded, and the image. -/
def Obligations.LoadWritesFontAndImage : Prop :=
  ∀ (s : State) (img : List Byte), 1 ≤ img.length → img.length ≤ 3584 →
    (s.params.fontPreload = true → s.params.FontFits) →
    ∃ t, deliver (.load img) s = .next t ∧ t.RegistersAtReset ∧ t.mem.wf ∧
      ∀ a, t.readByte a =
        if 0x200 ≤ a ∧ a < 0x200 + img.length then img.getD (a - 0x200) 0
        else if s.params.fontPreload = true ∧ s.params.fontBase.toNat ≤ a ∧
            a < s.params.fontBase.toNat + 80 then
          s.params.fontGlyphs.toList.getD (a - s.params.fontBase.toNat) 0
        else 0

/-- An empty or oversize image is refused, by name (70_reset_and_hazards.md section 2; log 6), and so is a
font that does not fit below 0x200 (log 7). -/
def Obligations.LoadErrorsAreRefused : Prop :=
  ∀ (s : State) (img : List Byte),
    (img.length = 0 → deliver (.load img) s = .refused .loadErrorEmpty) ∧
    (img.length > 3584 → deliver (.load img) s = .refused .loadErrorTooLong) ∧
    (1 ≤ img.length ∧ img.length ≤ 3584 ∧ s.params.fontPreload = true ∧ ¬ s.params.FontFits →
      deliver (.load img) s = .refused .fontBaseOutOfRange)

/-- 60_exceptions.md R340, R341. -/
def Obligations.TimeDecrementsTimers : Prop :=
  ∀ (s : State) (dt : Nat),
    (s.exec = .running →
      ∃ t, deliver (.time dt) s = .next t ∧ OnlyChanged [.tacc, .dt, .st] s t ∧
        t.tacc = (s.tacc + 60 * dt) % 1000000000 ∧
        t.dt.toNat = s.dt.toNat - (s.tacc + 60 * dt) / 1000000000 ∧
        t.st.toNat = s.st.toNat - (s.tacc + 60 * dt) / 1000000000) ∧
    (s.exec ≠ .running → deliver (.time dt) s = .next s)

/-- No drift: steps over any Time events leave what one event of their whole time leaves (60_exceptions.md
section 4, the spec's own inference); the events come from the pending list (log 1). -/
def Obligations.TimeSplitsWithoutDrift : Prop :=
  ∀ (s : State) (dts : List Nat) (rest : List Event), s.tacc < 1000000000 →
    s.pending = dts.map Event.time ++ rest →
    ∃ t, deliver (.time dts.sum) (s.setPending rest) = .next t ∧
      Host.Core.run core dts.length s = .next t

/-! ## Faults (60_exceptions.md) -/

/-- Every instruction completes in every state: taking a fault is a next state too (60_exceptions.md section
2). -/
def Obligations.EveryInstructionAnswersNext : Prop :=
  ∀ (i : Instr) (s : State), ∃ t, exec i s = .next t

/-- A fault is precise: a faulting instruction has changed nothing but `EXEC` and `FAULT`, and its record
carries the cycle's ipc and word (60_exceptions.md section 2, the spec's own inference; log 10). -/
def Obligations.InstructionFaultsArePrecise : Prop :=
  ∀ (i : Instr) (s t : State), s.exec = .running → exec i s = .next t → t.exec ≠ .running →
    ∃ (c : Cause) (a : Option Nat),
      FaultsWith (exec i s) s ⟨c, s.pc - 2, some (encode i), a⟩ []

/-- 60_exceptions.md R321, with the table of section 1: which instructions raise a fault of their own, and
which; no event but a Cycle leads into `Faulted`. -/
def Obligations.OnlyCheckedInstructionsFault : Prop :=
  (∀ (i : Instr) (s t : State), s.exec = .running → exec i s = .next t → t.exec ≠ .running →
    ∃ f, t.fault = some f ∧ ownCause i = some f.cause ∧
      (f.addr ≠ none ↔ f.cause = .boundsData)) ∧
  (∀ (e : Event) (s t : State), s.exec ≠ .faulted → deliver e s = .next t → t.exec = .faulted →
    e = .cycle)

/-- 60_exceptions.md R328: only a Reset leaves `Faulted` (a Load begins with one), and until then the
first fault stays recorded. -/
def Obligations.FaultStaysUntilReset : Prop :=
  ∀ (s t : State) (e : Event), s.exec = .faulted → deliver e s = .next t →
    e = .reset ∨ (∃ img, e = .load img) ∨ (t.exec = .faulted ∧ t.fault = s.fault)

/-! ## Invariants -/

/-- The invariant holds at reset. -/
def Obligations.ResetMeetsInvariant : Prop := State.reset.Inv

/-- Every step from a state that meets the invariant leads to one that meets it: memory canonical, the
stack at most 16 deep, `PC` at most 0x10FE, `TACC` below 10^9, `FAULT` recorded exactly in `Faulted`, a key
wait only in `Running`, `LAST` none exactly when no key is pressed. -/
def Obligations.StepKeepsInvariant : Prop :=
  ∀ s t : State, s.Inv → step s = .next t → t.Inv

/-- No step changes the parameters, and the count of draws never goes back (log 3, log 4, log 8). -/
def Obligations.StepKeepsParameters : Prop :=
  ∀ s t : State, step s = .next t → t.params = s.params ∧ s.draws ≤ t.draws

/-! ## Who writes what -/

/-- 20_memory.md R77 and R81: only FX33 and FX55 write memory. -/
def Obligations.OnlyStoresWriteMemory : Prop :=
  ∀ (i : Instr) (s t : State), exec i s = .next t → t.mem ≠ s.mem →
    (∃ x, i = .ldB x) ∨ (∃ x, i = .ldMemVx x)

/-- 10_state.md R32: only ANNN, FX1E, FX29, FX55 and FX65 write `I`. -/
def Obligations.OnlyFiveInstructionsWriteIndex : Prop :=
  ∀ (i : Instr) (s t : State), exec i s = .next t → t.i ≠ s.i →
    (∃ a, i = .ldI a) ∨ (∃ x, i = .addI x ∨ i = .ldF x ∨ i = .ldMemVx x ∨ i = .ldVxMem x)

/-- 44_display.md R260: only 00E0 and DXYN write the framebuffer, and each that completes counts one
display event. -/
def Obligations.OnlyDisplayWritesFramebuffer : Prop :=
  ∀ (i : Instr) (s t : State), exec i s = .next t →
    (t.fb ≠ s.fb ∨ t.dispEv ≠ s.dispEv → i = .cls ∨ ∃ x y n, i = .drw x y n) ∧
    (s.exec = .running → t.exec = .running → (i = .cls ∨ ∃ x y n, i = .drw x y n) →
      t.dispEv = s.dispEv + 1)

/-- The stack moves only by 2NNN and 00EE, one entry at a time (10_state.md section 4). -/
def Obligations.OnlyCallAndReturnMoveStack : Prop :=
  ∀ (i : Instr) (s t : State), exec i s = .next t → t.stack ≠ s.stack →
    (∃ a, i = .call a ∧ t.stack = s.stack ++ [s.pc]) ∨ (i = .ret ∧ s.stack = t.stack ++ [t.pc])

/-- 10_state.md R37 and R40, with section 6: instructions write `DT` and `ST` only by FX15 and FX18, and
never `TACC` or the latch. -/
def Obligations.TimersAndLatchWriters : Prop :=
  ∀ (i : Instr) (s t : State), exec i s = .next t →
    (t.dt ≠ s.dt → ∃ x, i = .ldDtVx x) ∧ (t.st ≠ s.st → ∃ x, i = .ldStVx x) ∧
    t.tacc = s.tacc ∧ t.keys = s.keys ∧ t.last = s.last

/-- 10_state.md R31: an instruction that changes `VF` writes it as a flag, or names it as a destination. -/
def Obligations.FlagRegisterWriters : Prop :=
  ∀ (i : Instr) (s t : State), exec i s = .next t → t.getV 15 ≠ s.getV 15 →
    (∃ x y, i = .addReg x y ∨ i = .sub x y ∨ i = .shr x y ∨ i = .subn x y ∨ i = .shl x y ∨
      ∃ n, i = .drw x y n) ∨
    (∃ nn, i = .ldImm 15 nn ∨ i = .addImm 15 nn ∨ i = .rnd 15 nn) ∨
    (∃ y, i = .ldReg 15 y ∨ i = .orReg 15 y ∨ i = .andReg 15 y ∨ i = .xorReg 15 y) ∨
    i = .ldVxDt 15 ∨ i = .ldVxMem 15

/-! ## Instructions together -/

/-- Calls and as many returns come back: after the last return `PC` is what it was when the first call
began, the address of the instruction after that call (40_execution_loop.md R142), and all else is as
before, for as many nested calls as there is room and wherever each call and each return stands: `PC` may
hold any value when the next begins. When they fill the stack, one more call faults (41_flow.md R173 quotes
the source's property). -/
def Obligations.NestedCallsReturn : Prop :=
  (∀ (s : State) (pc : Word) (target : Addr) (calls : List (Word × Addr)) (rets : List Word),
    rets.length = calls.length + 1 → s.stack.length + rets.length ≤ 16 →
    ∃ t, execAll (((pc, target) :: calls).map (fun c => (c.1, Instr.call c.2)) ++
        rets.map (fun p => (p, Instr.ret))) s = .next t ∧
      t.pc = pc ∧ OnlyChanged [.pc] s t) ∧
  (∀ (s : State) (calls : List (Word × Addr)), s.stack.length + calls.length = 16 →
    ∃ t, execAll (calls.map fun c => (c.1, Instr.call c.2)) s = .next t ∧
      ∀ (pc : Word) (target : Addr),
        FaultsWith (exec (.call target) (t.setPc pc)) (t.setPc pc)
          ⟨.stackOverflow, pc - 2, some (0x2#4 ++ target), none⟩ [])

/-- What FX55 stored, FX65 loads, from any later state with that memory and `I` back (43_index_memory.md
section 2). -/
def Obligations.StoredRegistersLoadBack : Prop :=
  ∀ (s t u : State) (x : Nib), s.mem.wf → s.indexAddr + x.toNat < 4096 →
    exec (.ldMemVx x) s = .next t → u.mem = t.mem → u.i = s.i →
    ∃ w, exec (.ldVxMem x) u = .next w ∧ ∀ k, k.toNat ≤ x.toNat → w.getV k = s.getV k

/-- A store by FX33 or FX55 is seen by every later fetch (20_memory.md section 8; 70_reset_and_hazards.md
section 3): in every state `u` in which the two bytes at `PC` are still what the store left, the word
fetched is made of the stored bytes where they stand and of the old bytes elsewhere, so also where it
takes one of each. -/
def Obligations.FetchSeesStore : Prop :=
  ∀ (s t u : State) (x : Nib), s.mem.wf →
    u.readByte u.pc.toNat = t.readByte u.pc.toNat →
    u.readByte (u.pc.toNat + 1) = t.readByte (u.pc.toNat + 1) →
    (s.indexAddr + 2 < 4096 → exec (.ldB x) s = .next t →
      let digits := [BitVec.ofNat 8 ((s.getV x).toNat / 100),
        BitVec.ofNat 8 ((s.getV x).toNat / 10 % 10), BitVec.ofNat 8 ((s.getV x).toNat % 10)]
      u.fetchWord =
        s.byteWithStored digits u.pc.toNat ++ s.byteWithStored digits (u.pc.toNat + 1)) ∧
    (s.indexAddr + x.toNat < 4096 → exec (.ldMemVx x) s = .next t →
      let regs := (List.range (x.toNat + 1)).map fun k => s.getV (BitVec.ofNat 4 k)
      u.fetchWord = s.byteWithStored regs u.pc.toNat ++ s.byteWithStored regs (u.pc.toNat + 1))
end

