-- ==== Sys2Proof/Laws/Config.lean ====
section
/-! SUPPORT. The fixed sizes as numerals (00_scope.md R10), so that arithmetic closes over them. -/

namespace Sys2Proof.Config

@[simp] theorem memSize_eq : memSize = 4096 := rfl
@[simp] theorem stackDepth_eq : stackDepth = 16 := rfl
@[simp] theorem fbW_eq : fbW = 64 := rfl
@[simp] theorem fbH_eq : fbH = 32 := rfl
@[simp] theorem loadBase_eq : loadBase = 0x200 := rfl
@[simp] theorem maxImage_eq : maxImage = 3584 := rfl
@[simp] theorem tickUnit_eq : tickUnit = 1000000000 := rfl

end Sys2Proof.Config
end

