-- ==== Sys2Proof/Laws/Decode.lean ====
section
/-! SUPPORT. Words as four nibbles, and what a mask keeps of them: the routine of decode proofs
(30_encoding.md R101, R104). -/

namespace Sys2Proof

/-- A word is its four nibbles. -/
theorem Word.nibbles (w : Word) :
    w = w.extractLsb' 12 4 ++ w.extractLsb' 8 4 ++ w.extractLsb' 4 4 ++ w.extractLsb' 0 4 := by
  apply BitVec.eq_of_getLsbD_eq
  intro k hk
  simp only [BitVec.getLsbD_append, BitVec.getLsbD_extractLsb']
  by_cases h0 : k < 4
  · simp [h0]
  · by_cases h1 : k < 8
    · simp [h0, show k - 4 < 4 by omega, show 4 + (k - 4) = k by omega]
    · by_cases h2 : k < 12
      · simp [h0, show ¬ k - 4 < 4 by omega, show k - 4 - 4 < 4 by omega,
          show 8 + (k - 4 - 4) = k by omega]
      · simp [h0, show ¬ k - 4 < 4 by omega, show ¬ k - 4 - 4 < 4 by omega,
          show k - 4 - 4 - 4 < 4 by omega, show 12 + (k - 4 - 4 - 4) = k by omega]

/-- What is true of every word made of four nibbles is true of every word. -/
theorem Word.forall_nibbles {P : Word → Prop} (h : ∀ a b c d : Nib, P (a ++ b ++ c ++ d)) (w : Word) :
    P w := by
  rw [w.nibbles]; exact h _ _ _ _

/-- The fields of a word made of four nibbles (30_encoding.md R101). -/
theorem fieldsOf_nibbles (a b c d : Nib) :
    fieldsOf (a ++ b ++ c ++ d) = ⟨b ++ c ++ d, c ++ d, d, b, c⟩ := by
  simp only [fieldsOf, Fields.mk.injEq]
  refine ⟨?_, ?_, ?_, ?_, ?_⟩ <;>
  · apply BitVec.eq_of_getLsbD_eq
    intro k hk
    simp only [BitVec.getLsbD_append, BitVec.getLsbD_extractLsb']
    grind

/-! ## What a row's mask keeps of four nibbles -/

/-- Appended words are equal exactly when their parts are. -/
theorem append_eq_append {m n : Nat} (a a' : BitVec m) (b b' : BitVec n) :
    a ++ b = a' ++ b' ↔ a = a' ∧ b = b' := by
  constructor
  · intro h
    constructor
    · have := congrArg (fun z => BitVec.extractLsb' n m z) h
      simpa [BitVec.extractLsb'_append_eq_left] using this
    · have := congrArg (fun z => BitVec.setWidth n z) h
      simpa [BitVec.setWidth_append] using this
  · rintro ⟨rfl, rfl⟩; rfl

theorem nib_and_F (a : Nib) : a &&& 15#4 = a := by revert a; decide

/-- A row matches exactly when each nibble under the mask's nibble is the pattern's (30_encoding.md
R104). -/
theorem matches_nibbles (m1 m2 m3 m4 b1 b2 b3 b4 a b c d : Nib) (h : Fields → Instr) :
    Row.matches ⟨(b1 ++ b2 ++ b3 ++ b4 : Word), (m1 ++ m2 ++ m3 ++ m4 : Word), h⟩
        (a ++ b ++ c ++ d : Word) =
      decide (a &&& m1 = b1 ∧ b &&& m2 = b2 ∧ c &&& m3 = b3 ∧ d &&& m4 = b4) := by
  apply decide_eq_decide.2
  show _ ↔ _
  rw [BitVec.and_append, BitVec.and_append, BitVec.and_append, append_eq_append, append_eq_append,
    append_eq_append]
  simp [and_assoc]

theorem row_F000 (k a b c d : Nib) (bits : Word) (h : Fields → Instr)
    (e : bits = (k ++ 0#4 ++ 0#4 ++ 0#4 : Word)) :
    Row.matches ⟨bits, (0xF000 : Word), h⟩ (a ++ b ++ c ++ d : Word) = decide (a = k) := by
  subst e
  simpa [nib_and_F] using matches_nibbles 15 0 0 0 k 0 0 0 a b c d h

theorem row_F00F (k l a b c d : Nib) (bits : Word) (h : Fields → Instr)
    (e : bits = (k ++ 0#4 ++ 0#4 ++ l : Word)) :
    Row.matches ⟨bits, (0xF00F : Word), h⟩ (a ++ b ++ c ++ d : Word) = decide (a = k ∧ d = l) := by
  subst e
  simpa [nib_and_F] using matches_nibbles 15 0 0 15 k 0 0 l a b c d h

theorem row_F0FF (k l m a b c d : Nib) (bits : Word) (h : Fields → Instr)
    (e : bits = (k ++ 0#4 ++ l ++ m : Word)) :
    Row.matches ⟨bits, (0xF0FF : Word), h⟩ (a ++ b ++ c ++ d : Word) =
      decide (a = k ∧ c = l ∧ d = m) := by
  subst e
  simpa [nib_and_F] using matches_nibbles 15 0 15 15 k 0 l m a b c d h

theorem row_FFFF (k j l m a b c d : Nib) (bits : Word) (h : Fields → Instr)
    (e : bits = (k ++ j ++ l ++ m : Word)) :
    Row.matches ⟨bits, (0xFFFF : Word), h⟩ (a ++ b ++ c ++ d : Word) =
      decide (a = k ∧ b = j ∧ c = l ∧ d = m) := by
  subst e
  simpa [nib_and_F] using matches_nibbles 15 15 15 15 k j l m a b c d h

/-! ## The dispatch table as the opcode map of 30_encoding.md R112 -/

/-- The opcode map, by the four nibbles of a word (30_encoding.md R112). -/
def opcodeMap (a b c d : Nib) : Option Instr :=
  if a = 0x0 then
    if b = 0x0 ∧ c = 0xE ∧ d = 0x0 then some .cls
    else if b = 0x0 ∧ c = 0xE ∧ d = 0xE then some .ret
    else some (.sys (b ++ c ++ d))
  else if a = 0x1 then some (.jp (b ++ c ++ d))
  else if a = 0x2 then some (.call (b ++ c ++ d))
  else if a = 0x3 then some (.seImm b (c ++ d))
  else if a = 0x4 then some (.sneImm b (c ++ d))
  else if a = 0x5 then if d = 0x0 then some (.seReg b c) else none
  else if a = 0x6 then some (.ldImm b (c ++ d))
  else if a = 0x7 then some (.addImm b (c ++ d))
  else if a = 0x8 then
    if d = 0x0 then some (.ldReg b c)
    else if d = 0x1 then some (.orReg b c)
    else if d = 0x2 then some (.andReg b c)
    else if d = 0x3 then some (.xorReg b c)
    else if d = 0x4 then some (.addReg b c)
    else if d = 0x5 then some (.sub b c)
    else if d = 0x6 then some (.shr b c)
    else if d = 0x7 then some (.subn b c)
    else if d = 0xE then some (.shl b c)
    else none
  else if a = 0x9 then if d = 0x0 then some (.sneReg b c) else none
  else if a = 0xA then some (.ldI (b ++ c ++ d))
  else if a = 0xB then some (.jpV0 (b ++ c ++ d))
  else if a = 0xC then some (.rnd b (c ++ d))
  else if a = 0xD then some (.drw b c d)
  else if a = 0xE then
    if c = 0x9 ∧ d = 0xE then some (.skp b)
    else if c = 0xA ∧ d = 0x1 then some (.sknp b)
    else none
  else
    if c = 0x0 ∧ d = 0x7 then some (.ldVxDt b)
    else if c = 0x0 ∧ d = 0xA then some (.ldVxK b)
    else if c = 0x1 ∧ d = 0x5 then some (.ldDtVx b)
    else if c = 0x1 ∧ d = 0x8 then some (.ldStVx b)
    else if c = 0x1 ∧ d = 0xE then some (.addI b)
    else if c = 0x2 ∧ d = 0x9 then some (.ldF b)
    else if c = 0x3 ∧ d = 0x3 then some (.ldB b)
    else if c = 0x5 ∧ d = 0x5 then some (.ldMemVx b)
    else if c = 0x6 ∧ d = 0x5 then some (.ldVxMem b)
    else none

theorem nib_cases (a : Nib) : a = 0 ∨ a = 1 ∨ a = 2 ∨ a = 3 ∨ a = 4 ∨ a = 5 ∨ a = 6 ∨ a = 7 ∨
    a = 8 ∨ a = 9 ∨ a = 10 ∨ a = 11 ∨ a = 12 ∨ a = 13 ∨ a = 14 ∨ a = 15 := by revert a; decide

theorem find?_cons_ite {α : Type} (p : α → Bool) (r : α) (l : List α) :
    List.find? p (r :: l) = if p r = true then some r else l.find? p := by
  rw [List.find?_cons]; cases p r <;> rfl

/-- First match wins over the 35 rows is the opcode map. -/
theorem dispatch_eq_opcodeMap (a b c d : Nib) :
    (dispatch (a ++ b ++ c ++ d)).map (fun r => r.handler ⟨b ++ c ++ d, c ++ d, d, b, c⟩) =
      opcodeMap a b c d := by
  simp only [dispatch, dispatchTable, rowsFlow, rowsAlu, rowsMisc, List.cons_append, List.nil_append,
    find?_cons_ite, List.find?_nil]
  simp only [fun h => row_FFFF 0 0 14 0 a b c d 0x00E0 h rfl, fun h => row_FFFF 0 0 14 14 a b c d 0x00EE h rfl,
    fun h => row_F000 0 a b c d 0x0000 h rfl, fun h => row_F000 1 a b c d 0x1000 h rfl,
    fun h => row_F000 2 a b c d 0x2000 h rfl, fun h => row_F000 3 a b c d 0x3000 h rfl,
    fun h => row_F000 4 a b c d 0x4000 h rfl, fun h => row_F00F 5 0 a b c d 0x5000 h rfl,
    fun h => row_F000 6 a b c d 0x6000 h rfl, fun h => row_F000 7 a b c d 0x7000 h rfl,
    fun h => row_F00F 8 0 a b c d 0x8000 h rfl, fun h => row_F00F 8 1 a b c d 0x8001 h rfl,
    fun h => row_F00F 8 2 a b c d 0x8002 h rfl, fun h => row_F00F 8 3 a b c d 0x8003 h rfl,
    fun h => row_F00F 8 4 a b c d 0x8004 h rfl, fun h => row_F00F 8 5 a b c d 0x8005 h rfl,
    fun h => row_F00F 8 6 a b c d 0x8006 h rfl, fun h => row_F00F 8 7 a b c d 0x8007 h rfl,
    fun h => row_F00F 8 14 a b c d 0x800E h rfl, fun h => row_F00F 9 0 a b c d 0x9000 h rfl,
    fun h => row_F000 10 a b c d 0xA000 h rfl, fun h => row_F000 11 a b c d 0xB000 h rfl,
    fun h => row_F000 12 a b c d 0xC000 h rfl, fun h => row_F000 13 a b c d 0xD000 h rfl,
    fun h => row_F0FF 14 9 14 a b c d 0xE09E h rfl, fun h => row_F0FF 14 10 1 a b c d 0xE0A1 h rfl,
    fun h => row_F0FF 15 0 7 a b c d 0xF007 h rfl, fun h => row_F0FF 15 0 10 a b c d 0xF00A h rfl,
    fun h => row_F0FF 15 1 5 a b c d 0xF015 h rfl, fun h => row_F0FF 15 1 8 a b c d 0xF018 h rfl,
    fun h => row_F0FF 15 1 14 a b c d 0xF01E h rfl, fun h => row_F0FF 15 2 9 a b c d 0xF029 h rfl,
    fun h => row_F0FF 15 3 3 a b c d 0xF033 h rfl, fun h => row_F0FF 15 5 5 a b c d 0xF055 h rfl,
    fun h => row_F0FF 15 6 5 a b c d 0xF065 h rfl, decide_eq_true_eq]
  simp only [apply_ite (Option.map _), Option.map_some, Option.map_none, opcodeMap]
  rcases nib_cases a with rfl | rfl | rfl | rfl | rfl | rfl | rfl | rfl | rfl | rfl | rfl | rfl |
    rfl | rfl | rfl | rfl <;> simp

/-- The decoder on a word made of four nibbles: the opcode map, or the refusal that names the word. -/
theorem decodeWord_nibbles (a b c d : Nib) :
    decodeWord (a ++ b ++ c ++ d) =
      match opcodeMap a b c d with
      | some i => .ok i
      | none => .error (.noMatch (a ++ b ++ c ++ d)) := by
  have h := dispatch_eq_opcodeMap a b c d
  simp only [decodeWord, fieldsOf_nibbles]
  cases hd : dispatch (a ++ b ++ c ++ d) with
  | none => rw [hd] at h; rw [← h]; rfl
  | some r => rw [hd] at h; rw [← h]; rfl

/-! ## Operands as nibbles, and words as bytes -/

/-- What is true of every address made of three nibbles is true of every address. -/
theorem Addr.forall_nibbles {P : Addr → Prop} (h : ∀ b c d : Nib, P (b ++ c ++ d)) (a : Addr) : P a := by
  have : a = a.extractLsb' 8 4 ++ a.extractLsb' 4 4 ++ a.extractLsb' 0 4 := by
    apply BitVec.eq_of_getLsbD_eq
    intro k hk
    simp only [BitVec.getLsbD_append, BitVec.getLsbD_extractLsb']
    grind
  rw [this]; exact h _ _ _

/-- What is true of every byte made of two nibbles is true of every byte. -/
theorem Byte.forall_nibbles {P : Byte → Prop} (h : ∀ c d : Nib, P (c ++ d)) (b : Byte) : P b := by
  have : b = b.extractLsb' 4 4 ++ b.extractLsb' 0 4 := by
    apply BitVec.eq_of_getLsbD_eq
    intro k hk
    simp only [BitVec.getLsbD_append, BitVec.getLsbD_extractLsb']
    grind
  rw [this]; exact h _ _

/-- Shape `A` as four nibbles. -/
theorem encA_nibbles (a b c d : Nib) : encA a (b ++ c ++ d) = a ++ b ++ c ++ d := by
  apply BitVec.eq_of_getLsbD_eq
  intro k hk
  simp only [encA, BitVec.getLsbD_append]
  grind

/-- Shape `XNN` as four nibbles. -/
theorem encXNN_nibbles (a b c d : Nib) : encXNN a b (c ++ d) = a ++ b ++ c ++ d := by
  apply BitVec.eq_of_getLsbD_eq
  intro k hk
  simp only [encXNN, BitVec.getLsbD_append]
  grind

/-- Shape `X` as four nibbles. -/
theorem encX_nibbles (a b c d : Nib) : encX a b (c ++ d) = a ++ b ++ c ++ d := encXNN_nibbles a b c d

/-- A word's two bytes make the word (20_memory.md R72). -/
theorem wordOfBytes_halves (w : Word) : wordOfBytes (w.extractLsb' 8 8) (w.extractLsb' 0 8) = w := by
  apply BitVec.eq_of_getLsbD_eq
  intro k hk
  simp only [wordOfBytes, BitVec.getLsbD_append, BitVec.getLsbD_extractLsb']
  grind

/-- The word of two bytes is the shift and the or of 40_execution_loop.md R141. -/
theorem wordOfBytes_eq_or (hi lo : Byte) :
    wordOfBytes hi lo = (hi.zeroExtend 16 <<< 8) ||| lo.zeroExtend 16 := by
  apply BitVec.eq_of_getLsbD_eq
  intro k hk
  simp only [wordOfBytes, BitVec.getLsbD_append, BitVec.getLsbD_or, BitVec.getLsbD_shiftLeft,
    BitVec.truncate_eq_setWidth, BitVec.getLsbD_setWidth]
  by_cases h : k < 8
  · simp [h]; omega
  · have := BitVec.getLsbD_of_ge lo k (by omega)
    simp [h, hk, this]; omega

end Sys2Proof
end

