-- ==== Sys2Proof/Laws/Memory.lean ====
section
/-! SUPPORT. Memory: read after write, and that every memory operation keeps the canonical form
(20_memory.md R74, R79). -/

namespace Sys2Proof.Machine

/-- An address below every listed one reads as unlisted. -/
theorem Memory.read_below (m : Memory) (k : Nat) (h : ∀ d ∈ m, k < d.1) :
    m.read k = Memory.unlisted k := by
  induction m with
  | nil => rfl
  | cons d m ih =>
    obtain ⟨b, u⟩ := d
    have : k < b := h (b, u) (by simp)
    simp only [Memory.read]
    rw [if_neg (by omega)]
    exact ih (fun e he => h e (by simp [he]))

/-- A write changes only its own byte. -/
theorem Memory.read_write (m : Memory) (a : Nat) (v : Byte) (c : Nat) (h : m.wf) :
    (m.write a v).read c = if c = a then v else m.read c := by
  obtain ⟨hp, hv⟩ := h
  induction m with
  | nil =>
    simp only [Memory.write]
    split <;> rename_i h0 <;> simp [Memory.read, h0, eq_comm]
    intro _; rfl
  | cons hd m ih =>
    obtain ⟨b, u⟩ := hd
    rw [List.pairwise_cons] at hp
    have hlow : ∀ k, k ≤ b → Memory.read m k = Memory.unlisted k := fun k hk =>
      Memory.read_below m k fun d hd => Nat.lt_of_le_of_lt hk (hp.1 d hd)
    simp only [Memory.write]
    split
    · rename_i hab
      split
      · rename_i h0
        by_cases hc : c = a
        · subst hc
          simp only [Memory.read, if_neg (show ¬ b = c by omega), ↓reduceIte]
          rw [hlow c (by omega), h0]
        · simp [hc]
      · by_cases hc : c = a
        · subst hc; simp [Memory.read]
        · simp [Memory.read, hc, Ne.symm hc]
    · split
      · rename_i hab
        subst hab
        split
        · rename_i h0
          by_cases hc : c = a
          · subst hc; simp [hlow c (Nat.le_refl _), h0]
          · simp [Memory.read, hc, Ne.symm hc]
        · by_cases hc : c = a
          · subst hc; simp [Memory.read]
          · simp [Memory.read, hc, Ne.symm hc]
      · have ih' := ih hp.2 (fun d hd => hv d (by simp [hd]))
        simp only [Memory.read]
        by_cases hb : b = c
        · subst hb
          rw [if_neg (show ¬ b = a by omega)]
          simp
        · simp [hb, ih']

/-- Addresses that were above a bound and the one written are above it after the write. -/
theorem Memory.write_above (m : Memory) (a lo : Nat) (v : Byte) (ha : lo < a)
    (h : ∀ c ∈ m, lo < c.1) : ∀ c ∈ m.write a v, lo < c.1 := by
  induction m with
  | nil =>
    simp only [Memory.write]
    split <;> simp [ha]
  | cons hd m ih =>
    obtain ⟨b, u⟩ := hd
    have hb : lo < b := h (b, u) (by simp)
    have hm : ∀ c ∈ m, lo < c.1 := fun c hc => h c (by simp [hc])
    simp only [Memory.write]
    split
    · split
      · exact h
      · intro c hc
        rcases List.mem_cons.1 hc with rfl | hc
        · exact ha
        · exact h c hc
    · split
      · split
        · exact hm
        · intro c hc
          rcases List.mem_cons.1 hc with rfl | hc
          · exact ha
          · exact hm c hc
      · intro c hc
        rcases List.mem_cons.1 hc with rfl | hc
        · exact hb
        · exact ih hm c hc

/-- A write to an address of memory keeps the canonical form. -/
theorem Memory.write_wf (m : Memory) (a : Nat) (v : Byte) (ha : a < Config.memSize) (h : m.wf) :
    (m.write a v).wf := by
  obtain ⟨hp, hv⟩ := h
  induction m with
  | nil =>
    simp only [Memory.write]
    split
    · simp [Memory.wf]
    · rename_i h0; exact ⟨by simp, by simpa using ⟨h0, ha⟩⟩
  | cons hd m ih =>
    obtain ⟨b, u⟩ := hd
    have hp' := List.pairwise_cons.1 hp
    have hm : ∀ c ∈ m, c.2 ≠ Memory.unlisted c.1 ∧ c.1 < Config.memSize :=
      fun c hc => hv c (by simp [hc])
    have hbu := hv (b, u) (by simp)
    simp only [Memory.write]
    split
    · rename_i hab
      split
      · exact ⟨hp, hv⟩
      · rename_i h0
        refine ⟨List.pairwise_cons.2 ⟨?_, hp⟩, ?_⟩
        · intro c hc
          rcases List.mem_cons.1 hc with rfl | hc
          · exact hab
          · exact Nat.lt_trans hab (hp'.1 c hc)
        · intro c hc
          rcases List.mem_cons.1 hc with rfl | hc
          · exact ⟨h0, ha⟩
          · exact hv c hc
    · split
      · rename_i hab
        subst hab
        split
        · exact ⟨hp'.2, hm⟩
        · rename_i h0
          refine ⟨List.pairwise_cons.2 ⟨hp'.1, hp'.2⟩, ?_⟩
          intro c hc
          rcases List.mem_cons.1 hc with rfl | hc
          · exact ⟨h0, ha⟩
          · exact hm c hc
      · rename_i h1 h2
        have ih' := ih hp'.2 hm
        refine ⟨List.pairwise_cons.2 ⟨?_, ih'.1⟩, ?_⟩
        · exact Memory.write_above m a b v (by omega) hp'.1
        · intro c hc
          rcases List.mem_cons.1 hc with rfl | hc
          · exact hbu
          · exact ih'.2 c hc

/-- Writing bytes in memory keeps the canonical form. -/
theorem Memory.writeList_wf (vs : List Byte) (m : Memory) (a : Nat)
    (ha : a + vs.length ≤ Config.memSize) (h : m.wf) : (m.writeList a vs).wf := by
  induction vs generalizing m a with
  | nil => exact h
  | cons v vs ih =>
    simp only [List.length_cons] at ha
    exact ih _ _ (by omega) (Memory.write_wf m a v (by omega) h)

/-- What memory reads after bytes were written from `a` on: those bytes there, and elsewhere what it
read before. -/
theorem Memory.read_writeList (vs : List Byte) (m : Memory) (a c : Nat)
    (ha : a + vs.length ≤ Config.memSize) (h : m.wf) :
    (m.writeList a vs).read c = if a ≤ c ∧ c < a + vs.length then vs.getD (c - a) 0 else m.read c := by
  induction vs generalizing m a with
  | nil => simp [Memory.writeList]
  | cons v vs ih =>
    simp only [List.length_cons] at ha
    simp only [Memory.writeList, List.length_cons]
    rw [ih _ _ (by omega) (Memory.write_wf m a v (by omega) h), Memory.read_write m a v c h]
    by_cases h1 : c = a
    · subst h1
      rw [if_neg (by omega), if_pos rfl, if_pos (by omega)]
      simp
    · by_cases h2 : a + 1 ≤ c ∧ c < a + 1 + vs.length
      · rw [if_pos h2, if_pos (by omega)]
        have : c - a = (c - (a + 1)) + 1 := by omega
        rw [this, List.getD_cons_succ]
      · rw [if_neg h2, if_neg h1, if_neg (by omega)]

/-- Equal memories are equal data: two canonical memories that read the same everywhere are the same. -/
theorem Memory.eq_of_read (m n : Memory) (hm : m.wf) (hn : n.wf) (h : ∀ a, m.read a = n.read a) :
    m = n := by
  induction m generalizing n with
  | nil =>
    cases n with
    | nil => rfl
    | cons d n =>
      obtain ⟨b, u⟩ := d
      have h1 := h b
      have h2 := (hn.2 (b, u) (by simp)).1
      simp [Memory.read] at h1
      exact absurd h1.symm h2
  | cons c m ih =>
    obtain ⟨a, v⟩ := c
    have hmp := List.pairwise_cons.1 hm.1
    have hv := (hm.2 (a, v) (by simp)).1
    have hm' : Memory.wf m := ⟨hmp.2, fun c hc => hm.2 c (by simp [hc])⟩
    cases n with
    | nil =>
      have h1 := h a
      simp [Memory.read] at h1
      exact absurd h1 hv
    | cons d n =>
      obtain ⟨b, u⟩ := d
      have hnp := List.pairwise_cons.1 hn.1
      have hu := (hn.2 (b, u) (by simp)).1
      have hn' : Memory.wf n := ⟨hnp.2, fun c hc => hn.2 c (by simp [hc])⟩
      have hab : a = b := by
        rcases Nat.lt_trichotomy a b with hlt | heq | hgt
        · have h1 := h a
          simp only [Memory.read, ↓reduceIte] at h1
          rw [if_neg (by omega), Memory.read_below n a
            (fun e he => Nat.lt_trans hlt (hnp.1 e he))] at h1
          exact absurd h1 hv
        · exact heq
        · have h1 := h b
          simp only [Memory.read, ↓reduceIte] at h1
          rw [if_neg (by omega), Memory.read_below m b
            (fun e he => Nat.lt_trans hgt (hmp.1 e he))] at h1
          exact absurd h1.symm hu
      subst hab
      have huv : v = u := by simpa [Memory.read] using h a
      subst huv
      congr 1
      refine ih n hm' hn' ?_
      intro k
      by_cases hk : a = k
      · subst hk
        rw [Memory.read_below m a hmp.1, Memory.read_below n a hnp.1]
      · simpa [Memory.read, hk] using h k

/-- Reset memory is canonical. -/
theorem Memory.reset_wf : State.reset.mem.wf := by decide

end Sys2Proof.Machine
end

