-- ==== Sys2Proof/Laws/State.lean ====
section
/-! SUPPORT. What each update of the state leaves in each field and each reader: true by rfl, so that no
proof unfolds a record update. -/

namespace Sys2Proof.Machine

variable (s : State)

/-! ### setMem -/

@[simp] theorem State.setMem_v (m : Memory) : (s.setMem m).v = s.v := rfl
@[simp] theorem State.setMem_i (m : Memory) : (s.setMem m).i = s.i := rfl
@[simp] theorem State.setMem_pc (m : Memory) : (s.setMem m).pc = s.pc := rfl
@[simp] theorem State.setMem_stack (m : Memory) : (s.setMem m).stack = s.stack := rfl
@[simp] theorem State.setMem_dt (m : Memory) : (s.setMem m).dt = s.dt := rfl
@[simp] theorem State.setMem_st (m : Memory) : (s.setMem m).st = s.st := rfl
@[simp] theorem State.setMem_tacc (m : Memory) : (s.setMem m).tacc = s.tacc := rfl
@[simp] theorem State.setMem_fb (m : Memory) : (s.setMem m).fb = s.fb := rfl
@[simp] theorem State.setMem_keys (m : Memory) : (s.setMem m).keys = s.keys := rfl
@[simp] theorem State.setMem_last (m : Memory) : (s.setMem m).last = s.last := rfl
@[simp] theorem State.setMem_exec (m : Memory) : (s.setMem m).exec = s.exec := rfl
@[simp] theorem State.setMem_fault (m : Memory) : (s.setMem m).fault = s.fault := rfl
@[simp] theorem State.setMem_wait (m : Memory) : (s.setMem m).wait = s.wait := rfl
@[simp] theorem State.setMem_dispEv (m : Memory) : (s.setMem m).dispEv = s.dispEv := rfl
@[simp] theorem State.setMem_diag (m : Memory) : (s.setMem m).diag = s.diag := rfl
@[simp] theorem State.setMem_mem (m : Memory) : (s.setMem m).mem = m := rfl
@[simp] theorem State.setMem_params (m : Memory) : (s.setMem m).params = s.params := rfl
@[simp] theorem State.setMem_draws (m : Memory) : (s.setMem m).draws = s.draws := rfl
@[simp] theorem State.setMem_pending (m : Memory) : (s.setMem m).pending = s.pending := rfl
@[simp] theorem State.setMem_getV (m : Memory) (z : Nib) : (s.setMem m).getV z = s.getV z := rfl
@[simp] theorem State.setMem_key (m : Memory) (z : Nib) : (s.setMem m).key z = s.key z := rfl
@[simp] theorem State.setMem_fbAt (m : Memory) (cx cy : Nat) : (s.setMem m).fbAt cx cy = s.fbAt cx cy := rfl
@[simp] theorem State.setMem_ipc (m : Memory) : (s.setMem m).ipc = s.ipc := rfl

/-! ### setV -/

@[simp] theorem State.setV_v (x : Nib) (b : Byte) : (s.setV x b).v = s.v.set x.toNat b x.isLt := rfl
@[simp] theorem State.setV_i (x : Nib) (b : Byte) : (s.setV x b).i = s.i := rfl
@[simp] theorem State.setV_pc (x : Nib) (b : Byte) : (s.setV x b).pc = s.pc := rfl
@[simp] theorem State.setV_stack (x : Nib) (b : Byte) : (s.setV x b).stack = s.stack := rfl
@[simp] theorem State.setV_dt (x : Nib) (b : Byte) : (s.setV x b).dt = s.dt := rfl
@[simp] theorem State.setV_st (x : Nib) (b : Byte) : (s.setV x b).st = s.st := rfl
@[simp] theorem State.setV_tacc (x : Nib) (b : Byte) : (s.setV x b).tacc = s.tacc := rfl
@[simp] theorem State.setV_fb (x : Nib) (b : Byte) : (s.setV x b).fb = s.fb := rfl
@[simp] theorem State.setV_keys (x : Nib) (b : Byte) : (s.setV x b).keys = s.keys := rfl
@[simp] theorem State.setV_last (x : Nib) (b : Byte) : (s.setV x b).last = s.last := rfl
@[simp] theorem State.setV_exec (x : Nib) (b : Byte) : (s.setV x b).exec = s.exec := rfl
@[simp] theorem State.setV_fault (x : Nib) (b : Byte) : (s.setV x b).fault = s.fault := rfl
@[simp] theorem State.setV_wait (x : Nib) (b : Byte) : (s.setV x b).wait = s.wait := rfl
@[simp] theorem State.setV_dispEv (x : Nib) (b : Byte) : (s.setV x b).dispEv = s.dispEv := rfl
@[simp] theorem State.setV_diag (x : Nib) (b : Byte) : (s.setV x b).diag = s.diag := rfl
@[simp] theorem State.setV_mem (x : Nib) (b : Byte) : (s.setV x b).mem = s.mem := rfl
@[simp] theorem State.setV_params (x : Nib) (b : Byte) : (s.setV x b).params = s.params := rfl
@[simp] theorem State.setV_draws (x : Nib) (b : Byte) : (s.setV x b).draws = s.draws := rfl
@[simp] theorem State.setV_pending (x : Nib) (b : Byte) : (s.setV x b).pending = s.pending := rfl
@[simp] theorem State.setV_key (x : Nib) (b : Byte) (z : Nib) : (s.setV x b).key z = s.key z := rfl
@[simp] theorem State.setV_readByte (x : Nib) (b : Byte) (z : Nat) : (s.setV x b).readByte z = s.readByte z := rfl
@[simp] theorem State.setV_fbAt (x : Nib) (b : Byte) (cx cy : Nat) : (s.setV x b).fbAt cx cy = s.fbAt cx cy := rfl
@[simp] theorem State.setV_ipc (x : Nib) (b : Byte) : (s.setV x b).ipc = s.ipc := rfl

/-! ### setVs -/

@[simp] theorem State.setVs_v (bs : List Byte) : (s.setVs bs).v = writeRegs s.v 0 bs := rfl
@[simp] theorem State.setVs_i (bs : List Byte) : (s.setVs bs).i = s.i := rfl
@[simp] theorem State.setVs_pc (bs : List Byte) : (s.setVs bs).pc = s.pc := rfl
@[simp] theorem State.setVs_stack (bs : List Byte) : (s.setVs bs).stack = s.stack := rfl
@[simp] theorem State.setVs_dt (bs : List Byte) : (s.setVs bs).dt = s.dt := rfl
@[simp] theorem State.setVs_st (bs : List Byte) : (s.setVs bs).st = s.st := rfl
@[simp] theorem State.setVs_tacc (bs : List Byte) : (s.setVs bs).tacc = s.tacc := rfl
@[simp] theorem State.setVs_fb (bs : List Byte) : (s.setVs bs).fb = s.fb := rfl
@[simp] theorem State.setVs_keys (bs : List Byte) : (s.setVs bs).keys = s.keys := rfl
@[simp] theorem State.setVs_last (bs : List Byte) : (s.setVs bs).last = s.last := rfl
@[simp] theorem State.setVs_exec (bs : List Byte) : (s.setVs bs).exec = s.exec := rfl
@[simp] theorem State.setVs_fault (bs : List Byte) : (s.setVs bs).fault = s.fault := rfl
@[simp] theorem State.setVs_wait (bs : List Byte) : (s.setVs bs).wait = s.wait := rfl
@[simp] theorem State.setVs_dispEv (bs : List Byte) : (s.setVs bs).dispEv = s.dispEv := rfl
@[simp] theorem State.setVs_diag (bs : List Byte) : (s.setVs bs).diag = s.diag := rfl
@[simp] theorem State.setVs_mem (bs : List Byte) : (s.setVs bs).mem = s.mem := rfl
@[simp] theorem State.setVs_params (bs : List Byte) : (s.setVs bs).params = s.params := rfl
@[simp] theorem State.setVs_draws (bs : List Byte) : (s.setVs bs).draws = s.draws := rfl
@[simp] theorem State.setVs_pending (bs : List Byte) : (s.setVs bs).pending = s.pending := rfl
@[simp] theorem State.setVs_key (bs : List Byte) (z : Nib) : (s.setVs bs).key z = s.key z := rfl
@[simp] theorem State.setVs_readByte (bs : List Byte) (z : Nat) : (s.setVs bs).readByte z = s.readByte z := rfl
@[simp] theorem State.setVs_fbAt (bs : List Byte) (cx cy : Nat) : (s.setVs bs).fbAt cx cy = s.fbAt cx cy := rfl
@[simp] theorem State.setVs_ipc (bs : List Byte) : (s.setVs bs).ipc = s.ipc := rfl

/-! ### setI -/

@[simp] theorem State.setI_v (w : Word) : (s.setI w).v = s.v := rfl
@[simp] theorem State.setI_i (w : Word) : (s.setI w).i = w := rfl
@[simp] theorem State.setI_pc (w : Word) : (s.setI w).pc = s.pc := rfl
@[simp] theorem State.setI_stack (w : Word) : (s.setI w).stack = s.stack := rfl
@[simp] theorem State.setI_dt (w : Word) : (s.setI w).dt = s.dt := rfl
@[simp] theorem State.setI_st (w : Word) : (s.setI w).st = s.st := rfl
@[simp] theorem State.setI_tacc (w : Word) : (s.setI w).tacc = s.tacc := rfl
@[simp] theorem State.setI_fb (w : Word) : (s.setI w).fb = s.fb := rfl
@[simp] theorem State.setI_keys (w : Word) : (s.setI w).keys = s.keys := rfl
@[simp] theorem State.setI_last (w : Word) : (s.setI w).last = s.last := rfl
@[simp] theorem State.setI_exec (w : Word) : (s.setI w).exec = s.exec := rfl
@[simp] theorem State.setI_fault (w : Word) : (s.setI w).fault = s.fault := rfl
@[simp] theorem State.setI_wait (w : Word) : (s.setI w).wait = s.wait := rfl
@[simp] theorem State.setI_dispEv (w : Word) : (s.setI w).dispEv = s.dispEv := rfl
@[simp] theorem State.setI_diag (w : Word) : (s.setI w).diag = s.diag := rfl
@[simp] theorem State.setI_mem (w : Word) : (s.setI w).mem = s.mem := rfl
@[simp] theorem State.setI_params (w : Word) : (s.setI w).params = s.params := rfl
@[simp] theorem State.setI_draws (w : Word) : (s.setI w).draws = s.draws := rfl
@[simp] theorem State.setI_pending (w : Word) : (s.setI w).pending = s.pending := rfl
@[simp] theorem State.setI_getV (w : Word) (z : Nib) : (s.setI w).getV z = s.getV z := rfl
@[simp] theorem State.setI_key (w : Word) (z : Nib) : (s.setI w).key z = s.key z := rfl
@[simp] theorem State.setI_readByte (w : Word) (z : Nat) : (s.setI w).readByte z = s.readByte z := rfl
@[simp] theorem State.setI_fbAt (w : Word) (cx cy : Nat) : (s.setI w).fbAt cx cy = s.fbAt cx cy := rfl
@[simp] theorem State.setI_ipc (w : Word) : (s.setI w).ipc = s.ipc := rfl

/-! ### setPc -/

@[simp] theorem State.setPc_v (w : Word) : (s.setPc w).v = s.v := rfl
@[simp] theorem State.setPc_i (w : Word) : (s.setPc w).i = s.i := rfl
@[simp] theorem State.setPc_pc (w : Word) : (s.setPc w).pc = w := rfl
@[simp] theorem State.setPc_stack (w : Word) : (s.setPc w).stack = s.stack := rfl
@[simp] theorem State.setPc_dt (w : Word) : (s.setPc w).dt = s.dt := rfl
@[simp] theorem State.setPc_st (w : Word) : (s.setPc w).st = s.st := rfl
@[simp] theorem State.setPc_tacc (w : Word) : (s.setPc w).tacc = s.tacc := rfl
@[simp] theorem State.setPc_fb (w : Word) : (s.setPc w).fb = s.fb := rfl
@[simp] theorem State.setPc_keys (w : Word) : (s.setPc w).keys = s.keys := rfl
@[simp] theorem State.setPc_last (w : Word) : (s.setPc w).last = s.last := rfl
@[simp] theorem State.setPc_exec (w : Word) : (s.setPc w).exec = s.exec := rfl
@[simp] theorem State.setPc_fault (w : Word) : (s.setPc w).fault = s.fault := rfl
@[simp] theorem State.setPc_wait (w : Word) : (s.setPc w).wait = s.wait := rfl
@[simp] theorem State.setPc_dispEv (w : Word) : (s.setPc w).dispEv = s.dispEv := rfl
@[simp] theorem State.setPc_diag (w : Word) : (s.setPc w).diag = s.diag := rfl
@[simp] theorem State.setPc_mem (w : Word) : (s.setPc w).mem = s.mem := rfl
@[simp] theorem State.setPc_params (w : Word) : (s.setPc w).params = s.params := rfl
@[simp] theorem State.setPc_draws (w : Word) : (s.setPc w).draws = s.draws := rfl
@[simp] theorem State.setPc_pending (w : Word) : (s.setPc w).pending = s.pending := rfl
@[simp] theorem State.setPc_getV (w : Word) (z : Nib) : (s.setPc w).getV z = s.getV z := rfl
@[simp] theorem State.setPc_key (w : Word) (z : Nib) : (s.setPc w).key z = s.key z := rfl
@[simp] theorem State.setPc_readByte (w : Word) (z : Nat) : (s.setPc w).readByte z = s.readByte z := rfl
@[simp] theorem State.setPc_fbAt (w : Word) (cx cy : Nat) : (s.setPc w).fbAt cx cy = s.fbAt cx cy := rfl

/-! ### setStack -/

@[simp] theorem State.setStack_v (l : List Word) : (s.setStack l).v = s.v := rfl
@[simp] theorem State.setStack_i (l : List Word) : (s.setStack l).i = s.i := rfl
@[simp] theorem State.setStack_pc (l : List Word) : (s.setStack l).pc = s.pc := rfl
@[simp] theorem State.setStack_stack (l : List Word) : (s.setStack l).stack = l := rfl
@[simp] theorem State.setStack_dt (l : List Word) : (s.setStack l).dt = s.dt := rfl
@[simp] theorem State.setStack_st (l : List Word) : (s.setStack l).st = s.st := rfl
@[simp] theorem State.setStack_tacc (l : List Word) : (s.setStack l).tacc = s.tacc := rfl
@[simp] theorem State.setStack_fb (l : List Word) : (s.setStack l).fb = s.fb := rfl
@[simp] theorem State.setStack_keys (l : List Word) : (s.setStack l).keys = s.keys := rfl
@[simp] theorem State.setStack_last (l : List Word) : (s.setStack l).last = s.last := rfl
@[simp] theorem State.setStack_exec (l : List Word) : (s.setStack l).exec = s.exec := rfl
@[simp] theorem State.setStack_fault (l : List Word) : (s.setStack l).fault = s.fault := rfl
@[simp] theorem State.setStack_wait (l : List Word) : (s.setStack l).wait = s.wait := rfl
@[simp] theorem State.setStack_dispEv (l : List Word) : (s.setStack l).dispEv = s.dispEv := rfl
@[simp] theorem State.setStack_diag (l : List Word) : (s.setStack l).diag = s.diag := rfl
@[simp] theorem State.setStack_mem (l : List Word) : (s.setStack l).mem = s.mem := rfl
@[simp] theorem State.setStack_params (l : List Word) : (s.setStack l).params = s.params := rfl
@[simp] theorem State.setStack_draws (l : List Word) : (s.setStack l).draws = s.draws := rfl
@[simp] theorem State.setStack_pending (l : List Word) : (s.setStack l).pending = s.pending := rfl
@[simp] theorem State.setStack_getV (l : List Word) (z : Nib) : (s.setStack l).getV z = s.getV z := rfl
@[simp] theorem State.setStack_key (l : List Word) (z : Nib) : (s.setStack l).key z = s.key z := rfl
@[simp] theorem State.setStack_readByte (l : List Word) (z : Nat) : (s.setStack l).readByte z = s.readByte z := rfl
@[simp] theorem State.setStack_fbAt (l : List Word) (cx cy : Nat) : (s.setStack l).fbAt cx cy = s.fbAt cx cy := rfl
@[simp] theorem State.setStack_ipc (l : List Word) : (s.setStack l).ipc = s.ipc := rfl

/-! ### setDt -/

@[simp] theorem State.setDt_v (b : Byte) : (s.setDt b).v = s.v := rfl
@[simp] theorem State.setDt_i (b : Byte) : (s.setDt b).i = s.i := rfl
@[simp] theorem State.setDt_pc (b : Byte) : (s.setDt b).pc = s.pc := rfl
@[simp] theorem State.setDt_stack (b : Byte) : (s.setDt b).stack = s.stack := rfl
@[simp] theorem State.setDt_dt (b : Byte) : (s.setDt b).dt = b := rfl
@[simp] theorem State.setDt_st (b : Byte) : (s.setDt b).st = s.st := rfl
@[simp] theorem State.setDt_tacc (b : Byte) : (s.setDt b).tacc = s.tacc := rfl
@[simp] theorem State.setDt_fb (b : Byte) : (s.setDt b).fb = s.fb := rfl
@[simp] theorem State.setDt_keys (b : Byte) : (s.setDt b).keys = s.keys := rfl
@[simp] theorem State.setDt_last (b : Byte) : (s.setDt b).last = s.last := rfl
@[simp] theorem State.setDt_exec (b : Byte) : (s.setDt b).exec = s.exec := rfl
@[simp] theorem State.setDt_fault (b : Byte) : (s.setDt b).fault = s.fault := rfl
@[simp] theorem State.setDt_wait (b : Byte) : (s.setDt b).wait = s.wait := rfl
@[simp] theorem State.setDt_dispEv (b : Byte) : (s.setDt b).dispEv = s.dispEv := rfl
@[simp] theorem State.setDt_diag (b : Byte) : (s.setDt b).diag = s.diag := rfl
@[simp] theorem State.setDt_mem (b : Byte) : (s.setDt b).mem = s.mem := rfl
@[simp] theorem State.setDt_params (b : Byte) : (s.setDt b).params = s.params := rfl
@[simp] theorem State.setDt_draws (b : Byte) : (s.setDt b).draws = s.draws := rfl
@[simp] theorem State.setDt_pending (b : Byte) : (s.setDt b).pending = s.pending := rfl
@[simp] theorem State.setDt_getV (b : Byte) (z : Nib) : (s.setDt b).getV z = s.getV z := rfl
@[simp] theorem State.setDt_key (b : Byte) (z : Nib) : (s.setDt b).key z = s.key z := rfl
@[simp] theorem State.setDt_readByte (b : Byte) (z : Nat) : (s.setDt b).readByte z = s.readByte z := rfl
@[simp] theorem State.setDt_fbAt (b : Byte) (cx cy : Nat) : (s.setDt b).fbAt cx cy = s.fbAt cx cy := rfl
@[simp] theorem State.setDt_ipc (b : Byte) : (s.setDt b).ipc = s.ipc := rfl

/-! ### setSt -/

@[simp] theorem State.setSt_v (b : Byte) : (s.setSt b).v = s.v := rfl
@[simp] theorem State.setSt_i (b : Byte) : (s.setSt b).i = s.i := rfl
@[simp] theorem State.setSt_pc (b : Byte) : (s.setSt b).pc = s.pc := rfl
@[simp] theorem State.setSt_stack (b : Byte) : (s.setSt b).stack = s.stack := rfl
@[simp] theorem State.setSt_dt (b : Byte) : (s.setSt b).dt = s.dt := rfl
@[simp] theorem State.setSt_st (b : Byte) : (s.setSt b).st = b := rfl
@[simp] theorem State.setSt_tacc (b : Byte) : (s.setSt b).tacc = s.tacc := rfl
@[simp] theorem State.setSt_fb (b : Byte) : (s.setSt b).fb = s.fb := rfl
@[simp] theorem State.setSt_keys (b : Byte) : (s.setSt b).keys = s.keys := rfl
@[simp] theorem State.setSt_last (b : Byte) : (s.setSt b).last = s.last := rfl
@[simp] theorem State.setSt_exec (b : Byte) : (s.setSt b).exec = s.exec := rfl
@[simp] theorem State.setSt_fault (b : Byte) : (s.setSt b).fault = s.fault := rfl
@[simp] theorem State.setSt_wait (b : Byte) : (s.setSt b).wait = s.wait := rfl
@[simp] theorem State.setSt_dispEv (b : Byte) : (s.setSt b).dispEv = s.dispEv := rfl
@[simp] theorem State.setSt_diag (b : Byte) : (s.setSt b).diag = s.diag := rfl
@[simp] theorem State.setSt_mem (b : Byte) : (s.setSt b).mem = s.mem := rfl
@[simp] theorem State.setSt_params (b : Byte) : (s.setSt b).params = s.params := rfl
@[simp] theorem State.setSt_draws (b : Byte) : (s.setSt b).draws = s.draws := rfl
@[simp] theorem State.setSt_pending (b : Byte) : (s.setSt b).pending = s.pending := rfl
@[simp] theorem State.setSt_getV (b : Byte) (z : Nib) : (s.setSt b).getV z = s.getV z := rfl
@[simp] theorem State.setSt_key (b : Byte) (z : Nib) : (s.setSt b).key z = s.key z := rfl
@[simp] theorem State.setSt_readByte (b : Byte) (z : Nat) : (s.setSt b).readByte z = s.readByte z := rfl
@[simp] theorem State.setSt_fbAt (b : Byte) (cx cy : Nat) : (s.setSt b).fbAt cx cy = s.fbAt cx cy := rfl
@[simp] theorem State.setSt_ipc (b : Byte) : (s.setSt b).ipc = s.ipc := rfl

/-! ### setFb -/

@[simp] theorem State.setFb_v (f : FrameBuf) : (s.setFb f).v = s.v := rfl
@[simp] theorem State.setFb_i (f : FrameBuf) : (s.setFb f).i = s.i := rfl
@[simp] theorem State.setFb_pc (f : FrameBuf) : (s.setFb f).pc = s.pc := rfl
@[simp] theorem State.setFb_stack (f : FrameBuf) : (s.setFb f).stack = s.stack := rfl
@[simp] theorem State.setFb_dt (f : FrameBuf) : (s.setFb f).dt = s.dt := rfl
@[simp] theorem State.setFb_st (f : FrameBuf) : (s.setFb f).st = s.st := rfl
@[simp] theorem State.setFb_tacc (f : FrameBuf) : (s.setFb f).tacc = s.tacc := rfl
@[simp] theorem State.setFb_fb (f : FrameBuf) : (s.setFb f).fb = f := rfl
@[simp] theorem State.setFb_keys (f : FrameBuf) : (s.setFb f).keys = s.keys := rfl
@[simp] theorem State.setFb_last (f : FrameBuf) : (s.setFb f).last = s.last := rfl
@[simp] theorem State.setFb_exec (f : FrameBuf) : (s.setFb f).exec = s.exec := rfl
@[simp] theorem State.setFb_fault (f : FrameBuf) : (s.setFb f).fault = s.fault := rfl
@[simp] theorem State.setFb_wait (f : FrameBuf) : (s.setFb f).wait = s.wait := rfl
@[simp] theorem State.setFb_dispEv (f : FrameBuf) : (s.setFb f).dispEv = s.dispEv := rfl
@[simp] theorem State.setFb_diag (f : FrameBuf) : (s.setFb f).diag = s.diag := rfl
@[simp] theorem State.setFb_mem (f : FrameBuf) : (s.setFb f).mem = s.mem := rfl
@[simp] theorem State.setFb_params (f : FrameBuf) : (s.setFb f).params = s.params := rfl
@[simp] theorem State.setFb_draws (f : FrameBuf) : (s.setFb f).draws = s.draws := rfl
@[simp] theorem State.setFb_pending (f : FrameBuf) : (s.setFb f).pending = s.pending := rfl
@[simp] theorem State.setFb_getV (f : FrameBuf) (z : Nib) : (s.setFb f).getV z = s.getV z := rfl
@[simp] theorem State.setFb_key (f : FrameBuf) (z : Nib) : (s.setFb f).key z = s.key z := rfl
@[simp] theorem State.setFb_readByte (f : FrameBuf) (z : Nat) : (s.setFb f).readByte z = s.readByte z := rfl
@[simp] theorem State.setFb_ipc (f : FrameBuf) : (s.setFb f).ipc = s.ipc := rfl

/-! ### setKey -/

@[simp] theorem State.setKey_v (k : Nib) (p : Bool) : (s.setKey k p).v = s.v := rfl
@[simp] theorem State.setKey_i (k : Nib) (p : Bool) : (s.setKey k p).i = s.i := rfl
@[simp] theorem State.setKey_pc (k : Nib) (p : Bool) : (s.setKey k p).pc = s.pc := rfl
@[simp] theorem State.setKey_stack (k : Nib) (p : Bool) : (s.setKey k p).stack = s.stack := rfl
@[simp] theorem State.setKey_dt (k : Nib) (p : Bool) : (s.setKey k p).dt = s.dt := rfl
@[simp] theorem State.setKey_st (k : Nib) (p : Bool) : (s.setKey k p).st = s.st := rfl
@[simp] theorem State.setKey_tacc (k : Nib) (p : Bool) : (s.setKey k p).tacc = s.tacc := rfl
@[simp] theorem State.setKey_fb (k : Nib) (p : Bool) : (s.setKey k p).fb = s.fb := rfl
@[simp] theorem State.setKey_keys (k : Nib) (p : Bool) : (s.setKey k p).keys = s.keys.set k.toNat p k.isLt := rfl
@[simp] theorem State.setKey_last (k : Nib) (p : Bool) : (s.setKey k p).last = s.last := rfl
@[simp] theorem State.setKey_exec (k : Nib) (p : Bool) : (s.setKey k p).exec = s.exec := rfl
@[simp] theorem State.setKey_fault (k : Nib) (p : Bool) : (s.setKey k p).fault = s.fault := rfl
@[simp] theorem State.setKey_wait (k : Nib) (p : Bool) : (s.setKey k p).wait = s.wait := rfl
@[simp] theorem State.setKey_dispEv (k : Nib) (p : Bool) : (s.setKey k p).dispEv = s.dispEv := rfl
@[simp] theorem State.setKey_diag (k : Nib) (p : Bool) : (s.setKey k p).diag = s.diag := rfl
@[simp] theorem State.setKey_mem (k : Nib) (p : Bool) : (s.setKey k p).mem = s.mem := rfl
@[simp] theorem State.setKey_params (k : Nib) (p : Bool) : (s.setKey k p).params = s.params := rfl
@[simp] theorem State.setKey_draws (k : Nib) (p : Bool) : (s.setKey k p).draws = s.draws := rfl
@[simp] theorem State.setKey_pending (k : Nib) (p : Bool) : (s.setKey k p).pending = s.pending := rfl
@[simp] theorem State.setKey_getV (k : Nib) (p : Bool) (z : Nib) : (s.setKey k p).getV z = s.getV z := rfl
@[simp] theorem State.setKey_readByte (k : Nib) (p : Bool) (z : Nat) : (s.setKey k p).readByte z = s.readByte z := rfl
@[simp] theorem State.setKey_fbAt (k : Nib) (p : Bool) (cx cy : Nat) : (s.setKey k p).fbAt cx cy = s.fbAt cx cy := rfl
@[simp] theorem State.setKey_ipc (k : Nib) (p : Bool) : (s.setKey k p).ipc = s.ipc := rfl

/-! ### setLast -/

@[simp] theorem State.setLast_v (l : Option Nib) : (s.setLast l).v = s.v := rfl
@[simp] theorem State.setLast_i (l : Option Nib) : (s.setLast l).i = s.i := rfl
@[simp] theorem State.setLast_pc (l : Option Nib) : (s.setLast l).pc = s.pc := rfl
@[simp] theorem State.setLast_stack (l : Option Nib) : (s.setLast l).stack = s.stack := rfl
@[simp] theorem State.setLast_dt (l : Option Nib) : (s.setLast l).dt = s.dt := rfl
@[simp] theorem State.setLast_st (l : Option Nib) : (s.setLast l).st = s.st := rfl
@[simp] theorem State.setLast_tacc (l : Option Nib) : (s.setLast l).tacc = s.tacc := rfl
@[simp] theorem State.setLast_fb (l : Option Nib) : (s.setLast l).fb = s.fb := rfl
@[simp] theorem State.setLast_keys (l : Option Nib) : (s.setLast l).keys = s.keys := rfl
@[simp] theorem State.setLast_last (l : Option Nib) : (s.setLast l).last = l := rfl
@[simp] theorem State.setLast_exec (l : Option Nib) : (s.setLast l).exec = s.exec := rfl
@[simp] theorem State.setLast_fault (l : Option Nib) : (s.setLast l).fault = s.fault := rfl
@[simp] theorem State.setLast_wait (l : Option Nib) : (s.setLast l).wait = s.wait := rfl
@[simp] theorem State.setLast_dispEv (l : Option Nib) : (s.setLast l).dispEv = s.dispEv := rfl
@[simp] theorem State.setLast_diag (l : Option Nib) : (s.setLast l).diag = s.diag := rfl
@[simp] theorem State.setLast_mem (l : Option Nib) : (s.setLast l).mem = s.mem := rfl
@[simp] theorem State.setLast_params (l : Option Nib) : (s.setLast l).params = s.params := rfl
@[simp] theorem State.setLast_draws (l : Option Nib) : (s.setLast l).draws = s.draws := rfl
@[simp] theorem State.setLast_pending (l : Option Nib) : (s.setLast l).pending = s.pending := rfl
@[simp] theorem State.setLast_getV (l : Option Nib) (z : Nib) : (s.setLast l).getV z = s.getV z := rfl
@[simp] theorem State.setLast_key (l : Option Nib) (z : Nib) : (s.setLast l).key z = s.key z := rfl
@[simp] theorem State.setLast_readByte (l : Option Nib) (z : Nat) : (s.setLast l).readByte z = s.readByte z := rfl
@[simp] theorem State.setLast_fbAt (l : Option Nib) (cx cy : Nat) : (s.setLast l).fbAt cx cy = s.fbAt cx cy := rfl
@[simp] theorem State.setLast_ipc (l : Option Nib) : (s.setLast l).ipc = s.ipc := rfl

/-! ### setWait -/

@[simp] theorem State.setWait_v (w : Option Nib) : (s.setWait w).v = s.v := rfl
@[simp] theorem State.setWait_i (w : Option Nib) : (s.setWait w).i = s.i := rfl
@[simp] theorem State.setWait_pc (w : Option Nib) : (s.setWait w).pc = s.pc := rfl
@[simp] theorem State.setWait_stack (w : Option Nib) : (s.setWait w).stack = s.stack := rfl
@[simp] theorem State.setWait_dt (w : Option Nib) : (s.setWait w).dt = s.dt := rfl
@[simp] theorem State.setWait_st (w : Option Nib) : (s.setWait w).st = s.st := rfl
@[simp] theorem State.setWait_tacc (w : Option Nib) : (s.setWait w).tacc = s.tacc := rfl
@[simp] theorem State.setWait_fb (w : Option Nib) : (s.setWait w).fb = s.fb := rfl
@[simp] theorem State.setWait_keys (w : Option Nib) : (s.setWait w).keys = s.keys := rfl
@[simp] theorem State.setWait_last (w : Option Nib) : (s.setWait w).last = s.last := rfl
@[simp] theorem State.setWait_exec (w : Option Nib) : (s.setWait w).exec = s.exec := rfl
@[simp] theorem State.setWait_fault (w : Option Nib) : (s.setWait w).fault = s.fault := rfl
@[simp] theorem State.setWait_wait (w : Option Nib) : (s.setWait w).wait = w := rfl
@[simp] theorem State.setWait_dispEv (w : Option Nib) : (s.setWait w).dispEv = s.dispEv := rfl
@[simp] theorem State.setWait_diag (w : Option Nib) : (s.setWait w).diag = s.diag := rfl
@[simp] theorem State.setWait_mem (w : Option Nib) : (s.setWait w).mem = s.mem := rfl
@[simp] theorem State.setWait_params (w : Option Nib) : (s.setWait w).params = s.params := rfl
@[simp] theorem State.setWait_draws (w : Option Nib) : (s.setWait w).draws = s.draws := rfl
@[simp] theorem State.setWait_pending (w : Option Nib) : (s.setWait w).pending = s.pending := rfl
@[simp] theorem State.setWait_getV (w : Option Nib) (z : Nib) : (s.setWait w).getV z = s.getV z := rfl
@[simp] theorem State.setWait_key (w : Option Nib) (z : Nib) : (s.setWait w).key z = s.key z := rfl
@[simp] theorem State.setWait_readByte (w : Option Nib) (z : Nat) : (s.setWait w).readByte z = s.readByte z := rfl
@[simp] theorem State.setWait_fbAt (w : Option Nib) (cx cy : Nat) : (s.setWait w).fbAt cx cy = s.fbAt cx cy := rfl
@[simp] theorem State.setWait_ipc (w : Option Nib) : (s.setWait w).ipc = s.ipc := rfl

/-! ### countDisplay -/

@[simp] theorem State.countDisplay_v : (s.countDisplay).v = s.v := rfl
@[simp] theorem State.countDisplay_i : (s.countDisplay).i = s.i := rfl
@[simp] theorem State.countDisplay_pc : (s.countDisplay).pc = s.pc := rfl
@[simp] theorem State.countDisplay_stack : (s.countDisplay).stack = s.stack := rfl
@[simp] theorem State.countDisplay_dt : (s.countDisplay).dt = s.dt := rfl
@[simp] theorem State.countDisplay_st : (s.countDisplay).st = s.st := rfl
@[simp] theorem State.countDisplay_tacc : (s.countDisplay).tacc = s.tacc := rfl
@[simp] theorem State.countDisplay_fb : (s.countDisplay).fb = s.fb := rfl
@[simp] theorem State.countDisplay_keys : (s.countDisplay).keys = s.keys := rfl
@[simp] theorem State.countDisplay_last : (s.countDisplay).last = s.last := rfl
@[simp] theorem State.countDisplay_exec : (s.countDisplay).exec = s.exec := rfl
@[simp] theorem State.countDisplay_fault : (s.countDisplay).fault = s.fault := rfl
@[simp] theorem State.countDisplay_wait : (s.countDisplay).wait = s.wait := rfl
@[simp] theorem State.countDisplay_dispEv : (s.countDisplay).dispEv = s.dispEv + 1 := rfl
@[simp] theorem State.countDisplay_diag : (s.countDisplay).diag = s.diag := rfl
@[simp] theorem State.countDisplay_mem : (s.countDisplay).mem = s.mem := rfl
@[simp] theorem State.countDisplay_params : (s.countDisplay).params = s.params := rfl
@[simp] theorem State.countDisplay_draws : (s.countDisplay).draws = s.draws := rfl
@[simp] theorem State.countDisplay_pending : (s.countDisplay).pending = s.pending := rfl
@[simp] theorem State.countDisplay_getV (z : Nib) : (s.countDisplay).getV z = s.getV z := rfl
@[simp] theorem State.countDisplay_key (z : Nib) : (s.countDisplay).key z = s.key z := rfl
@[simp] theorem State.countDisplay_readByte (z : Nat) : (s.countDisplay).readByte z = s.readByte z := rfl
@[simp] theorem State.countDisplay_fbAt (cx cy : Nat) : (s.countDisplay).fbAt cx cy = s.fbAt cx cy := rfl
@[simp] theorem State.countDisplay_ipc : (s.countDisplay).ipc = s.ipc := rfl

/-! ### addDiag -/

@[simp] theorem State.addDiag_v (k : DiagKind) (a w : Word) : (s.addDiag k a w).v = s.v := rfl
@[simp] theorem State.addDiag_i (k : DiagKind) (a w : Word) : (s.addDiag k a w).i = s.i := rfl
@[simp] theorem State.addDiag_pc (k : DiagKind) (a w : Word) : (s.addDiag k a w).pc = s.pc := rfl
@[simp] theorem State.addDiag_stack (k : DiagKind) (a w : Word) : (s.addDiag k a w).stack = s.stack := rfl
@[simp] theorem State.addDiag_dt (k : DiagKind) (a w : Word) : (s.addDiag k a w).dt = s.dt := rfl
@[simp] theorem State.addDiag_st (k : DiagKind) (a w : Word) : (s.addDiag k a w).st = s.st := rfl
@[simp] theorem State.addDiag_tacc (k : DiagKind) (a w : Word) : (s.addDiag k a w).tacc = s.tacc := rfl
@[simp] theorem State.addDiag_fb (k : DiagKind) (a w : Word) : (s.addDiag k a w).fb = s.fb := rfl
@[simp] theorem State.addDiag_keys (k : DiagKind) (a w : Word) : (s.addDiag k a w).keys = s.keys := rfl
@[simp] theorem State.addDiag_last (k : DiagKind) (a w : Word) : (s.addDiag k a w).last = s.last := rfl
@[simp] theorem State.addDiag_exec (k : DiagKind) (a w : Word) : (s.addDiag k a w).exec = s.exec := rfl
@[simp] theorem State.addDiag_fault (k : DiagKind) (a w : Word) : (s.addDiag k a w).fault = s.fault := rfl
@[simp] theorem State.addDiag_wait (k : DiagKind) (a w : Word) : (s.addDiag k a w).wait = s.wait := rfl
@[simp] theorem State.addDiag_dispEv (k : DiagKind) (a w : Word) : (s.addDiag k a w).dispEv = s.dispEv := rfl
@[simp] theorem State.addDiag_diag (k : DiagKind) (a w : Word) : (s.addDiag k a w).diag = s.diag ++ [⟨k, a, w⟩] := rfl
@[simp] theorem State.addDiag_mem (k : DiagKind) (a w : Word) : (s.addDiag k a w).mem = s.mem := rfl
@[simp] theorem State.addDiag_params (k : DiagKind) (a w : Word) : (s.addDiag k a w).params = s.params := rfl
@[simp] theorem State.addDiag_draws (k : DiagKind) (a w : Word) : (s.addDiag k a w).draws = s.draws := rfl
@[simp] theorem State.addDiag_pending (k : DiagKind) (a w : Word) : (s.addDiag k a w).pending = s.pending := rfl
@[simp] theorem State.addDiag_getV (k : DiagKind) (a w : Word) (z : Nib) : (s.addDiag k a w).getV z = s.getV z := rfl
@[simp] theorem State.addDiag_key (k : DiagKind) (a w : Word) (z : Nib) : (s.addDiag k a w).key z = s.key z := rfl
@[simp] theorem State.addDiag_readByte (k : DiagKind) (a w : Word) (z : Nat) : (s.addDiag k a w).readByte z = s.readByte z := rfl
@[simp] theorem State.addDiag_fbAt (k : DiagKind) (a w : Word) (cx cy : Nat) : (s.addDiag k a w).fbAt cx cy = s.fbAt cx cy := rfl
@[simp] theorem State.addDiag_ipc (k : DiagKind) (a w : Word) : (s.addDiag k a w).ipc = s.ipc := rfl

/-! ### nextDraw -/

@[simp] theorem State.nextDraw_v : (s.nextDraw).v = s.v := rfl
@[simp] theorem State.nextDraw_i : (s.nextDraw).i = s.i := rfl
@[simp] theorem State.nextDraw_pc : (s.nextDraw).pc = s.pc := rfl
@[simp] theorem State.nextDraw_stack : (s.nextDraw).stack = s.stack := rfl
@[simp] theorem State.nextDraw_dt : (s.nextDraw).dt = s.dt := rfl
@[simp] theorem State.nextDraw_st : (s.nextDraw).st = s.st := rfl
@[simp] theorem State.nextDraw_tacc : (s.nextDraw).tacc = s.tacc := rfl
@[simp] theorem State.nextDraw_fb : (s.nextDraw).fb = s.fb := rfl
@[simp] theorem State.nextDraw_keys : (s.nextDraw).keys = s.keys := rfl
@[simp] theorem State.nextDraw_last : (s.nextDraw).last = s.last := rfl
@[simp] theorem State.nextDraw_exec : (s.nextDraw).exec = s.exec := rfl
@[simp] theorem State.nextDraw_fault : (s.nextDraw).fault = s.fault := rfl
@[simp] theorem State.nextDraw_wait : (s.nextDraw).wait = s.wait := rfl
@[simp] theorem State.nextDraw_dispEv : (s.nextDraw).dispEv = s.dispEv := rfl
@[simp] theorem State.nextDraw_diag : (s.nextDraw).diag = s.diag := rfl
@[simp] theorem State.nextDraw_mem : (s.nextDraw).mem = s.mem := rfl
@[simp] theorem State.nextDraw_params : (s.nextDraw).params = s.params := rfl
@[simp] theorem State.nextDraw_draws : (s.nextDraw).draws = s.draws + 1 := rfl
@[simp] theorem State.nextDraw_pending : (s.nextDraw).pending = s.pending := rfl
@[simp] theorem State.nextDraw_getV (z : Nib) : (s.nextDraw).getV z = s.getV z := rfl
@[simp] theorem State.nextDraw_key (z : Nib) : (s.nextDraw).key z = s.key z := rfl
@[simp] theorem State.nextDraw_readByte (z : Nat) : (s.nextDraw).readByte z = s.readByte z := rfl
@[simp] theorem State.nextDraw_fbAt (cx cy : Nat) : (s.nextDraw).fbAt cx cy = s.fbAt cx cy := rfl
@[simp] theorem State.nextDraw_ipc : (s.nextDraw).ipc = s.ipc := rfl

/-! ### raise -/

@[simp] theorem State.raise_v (c : Cause) (a : Word) (w : Option Word) (n : Option Nat) : (s.raise c a w n).v = s.v := rfl
@[simp] theorem State.raise_i (c : Cause) (a : Word) (w : Option Word) (n : Option Nat) : (s.raise c a w n).i = s.i := rfl
@[simp] theorem State.raise_pc (c : Cause) (a : Word) (w : Option Word) (n : Option Nat) : (s.raise c a w n).pc = s.pc := rfl
@[simp] theorem State.raise_stack (c : Cause) (a : Word) (w : Option Word) (n : Option Nat) : (s.raise c a w n).stack = s.stack := rfl
@[simp] theorem State.raise_dt (c : Cause) (a : Word) (w : Option Word) (n : Option Nat) : (s.raise c a w n).dt = s.dt := rfl
@[simp] theorem State.raise_st (c : Cause) (a : Word) (w : Option Word) (n : Option Nat) : (s.raise c a w n).st = s.st := rfl
@[simp] theorem State.raise_tacc (c : Cause) (a : Word) (w : Option Word) (n : Option Nat) : (s.raise c a w n).tacc = s.tacc := rfl
@[simp] theorem State.raise_fb (c : Cause) (a : Word) (w : Option Word) (n : Option Nat) : (s.raise c a w n).fb = s.fb := rfl
@[simp] theorem State.raise_keys (c : Cause) (a : Word) (w : Option Word) (n : Option Nat) : (s.raise c a w n).keys = s.keys := rfl
@[simp] theorem State.raise_last (c : Cause) (a : Word) (w : Option Word) (n : Option Nat) : (s.raise c a w n).last = s.last := rfl
@[simp] theorem State.raise_exec (c : Cause) (a : Word) (w : Option Word) (n : Option Nat) : (s.raise c a w n).exec = .faulted := rfl
@[simp] theorem State.raise_fault (c : Cause) (a : Word) (w : Option Word) (n : Option Nat) : (s.raise c a w n).fault = some ⟨c, a, w, n⟩ := rfl
@[simp] theorem State.raise_wait (c : Cause) (a : Word) (w : Option Word) (n : Option Nat) : (s.raise c a w n).wait = s.wait := rfl
@[simp] theorem State.raise_dispEv (c : Cause) (a : Word) (w : Option Word) (n : Option Nat) : (s.raise c a w n).dispEv = s.dispEv := rfl
@[simp] theorem State.raise_diag (c : Cause) (a : Word) (w : Option Word) (n : Option Nat) : (s.raise c a w n).diag = s.diag := rfl
@[simp] theorem State.raise_mem (c : Cause) (a : Word) (w : Option Word) (n : Option Nat) : (s.raise c a w n).mem = s.mem := rfl
@[simp] theorem State.raise_params (c : Cause) (a : Word) (w : Option Word) (n : Option Nat) : (s.raise c a w n).params = s.params := rfl
@[simp] theorem State.raise_draws (c : Cause) (a : Word) (w : Option Word) (n : Option Nat) : (s.raise c a w n).draws = s.draws := rfl
@[simp] theorem State.raise_pending (c : Cause) (a : Word) (w : Option Word) (n : Option Nat) : (s.raise c a w n).pending = s.pending := rfl
@[simp] theorem State.raise_getV (c : Cause) (a : Word) (w : Option Word) (n : Option Nat) (z : Nib) : (s.raise c a w n).getV z = s.getV z := rfl
@[simp] theorem State.raise_key (c : Cause) (a : Word) (w : Option Word) (n : Option Nat) (z : Nib) : (s.raise c a w n).key z = s.key z := rfl
@[simp] theorem State.raise_readByte (c : Cause) (a : Word) (w : Option Word) (n : Option Nat) (z : Nat) : (s.raise c a w n).readByte z = s.readByte z := rfl
@[simp] theorem State.raise_fbAt (c : Cause) (a : Word) (w : Option Word) (n : Option Nat) (cx cy : Nat) : (s.raise c a w n).fbAt cx cy = s.fbAt cx cy := rfl
@[simp] theorem State.raise_ipc (c : Cause) (a : Word) (w : Option Word) (n : Option Nat) : (s.raise c a w n).ipc = s.ipc := rfl

/-! ### setTimers -/

@[simp] theorem State.setTimers_v (n : Nat) (b c : Byte) : (s.setTimers n b c).v = s.v := rfl
@[simp] theorem State.setTimers_i (n : Nat) (b c : Byte) : (s.setTimers n b c).i = s.i := rfl
@[simp] theorem State.setTimers_pc (n : Nat) (b c : Byte) : (s.setTimers n b c).pc = s.pc := rfl
@[simp] theorem State.setTimers_stack (n : Nat) (b c : Byte) : (s.setTimers n b c).stack = s.stack := rfl
@[simp] theorem State.setTimers_dt (n : Nat) (b c : Byte) : (s.setTimers n b c).dt = b := rfl
@[simp] theorem State.setTimers_st (n : Nat) (b c : Byte) : (s.setTimers n b c).st = c := rfl
@[simp] theorem State.setTimers_tacc (n : Nat) (b c : Byte) : (s.setTimers n b c).tacc = n := rfl
@[simp] theorem State.setTimers_fb (n : Nat) (b c : Byte) : (s.setTimers n b c).fb = s.fb := rfl
@[simp] theorem State.setTimers_keys (n : Nat) (b c : Byte) : (s.setTimers n b c).keys = s.keys := rfl
@[simp] theorem State.setTimers_last (n : Nat) (b c : Byte) : (s.setTimers n b c).last = s.last := rfl
@[simp] theorem State.setTimers_exec (n : Nat) (b c : Byte) : (s.setTimers n b c).exec = s.exec := rfl
@[simp] theorem State.setTimers_fault (n : Nat) (b c : Byte) : (s.setTimers n b c).fault = s.fault := rfl
@[simp] theorem State.setTimers_wait (n : Nat) (b c : Byte) : (s.setTimers n b c).wait = s.wait := rfl
@[simp] theorem State.setTimers_dispEv (n : Nat) (b c : Byte) : (s.setTimers n b c).dispEv = s.dispEv := rfl
@[simp] theorem State.setTimers_diag (n : Nat) (b c : Byte) : (s.setTimers n b c).diag = s.diag := rfl
@[simp] theorem State.setTimers_mem (n : Nat) (b c : Byte) : (s.setTimers n b c).mem = s.mem := rfl
@[simp] theorem State.setTimers_params (n : Nat) (b c : Byte) : (s.setTimers n b c).params = s.params := rfl
@[simp] theorem State.setTimers_draws (n : Nat) (b c : Byte) : (s.setTimers n b c).draws = s.draws := rfl
@[simp] theorem State.setTimers_pending (n : Nat) (b c : Byte) : (s.setTimers n b c).pending = s.pending := rfl
@[simp] theorem State.setTimers_getV (n : Nat) (b c : Byte) (z : Nib) : (s.setTimers n b c).getV z = s.getV z := rfl
@[simp] theorem State.setTimers_key (n : Nat) (b c : Byte) (z : Nib) : (s.setTimers n b c).key z = s.key z := rfl
@[simp] theorem State.setTimers_readByte (n : Nat) (b c : Byte) (z : Nat) : (s.setTimers n b c).readByte z = s.readByte z := rfl
@[simp] theorem State.setTimers_fbAt (n : Nat) (b c : Byte) (cx cy : Nat) : (s.setTimers n b c).fbAt cx cy = s.fbAt cx cy := rfl
@[simp] theorem State.setTimers_ipc (n : Nat) (b c : Byte) : (s.setTimers n b c).ipc = s.ipc := rfl

/-! ### setExec -/

@[simp] theorem State.setExec_v (e : RunState) : (s.setExec e).v = s.v := rfl
@[simp] theorem State.setExec_i (e : RunState) : (s.setExec e).i = s.i := rfl
@[simp] theorem State.setExec_pc (e : RunState) : (s.setExec e).pc = s.pc := rfl
@[simp] theorem State.setExec_stack (e : RunState) : (s.setExec e).stack = s.stack := rfl
@[simp] theorem State.setExec_dt (e : RunState) : (s.setExec e).dt = s.dt := rfl
@[simp] theorem State.setExec_st (e : RunState) : (s.setExec e).st = s.st := rfl
@[simp] theorem State.setExec_tacc (e : RunState) : (s.setExec e).tacc = s.tacc := rfl
@[simp] theorem State.setExec_fb (e : RunState) : (s.setExec e).fb = s.fb := rfl
@[simp] theorem State.setExec_keys (e : RunState) : (s.setExec e).keys = s.keys := rfl
@[simp] theorem State.setExec_last (e : RunState) : (s.setExec e).last = s.last := rfl
@[simp] theorem State.setExec_exec (e : RunState) : (s.setExec e).exec = e := rfl
@[simp] theorem State.setExec_fault (e : RunState) : (s.setExec e).fault = s.fault := rfl
@[simp] theorem State.setExec_wait (e : RunState) : (s.setExec e).wait = s.wait := rfl
@[simp] theorem State.setExec_dispEv (e : RunState) : (s.setExec e).dispEv = s.dispEv := rfl
@[simp] theorem State.setExec_diag (e : RunState) : (s.setExec e).diag = s.diag := rfl
@[simp] theorem State.setExec_mem (e : RunState) : (s.setExec e).mem = s.mem := rfl
@[simp] theorem State.setExec_params (e : RunState) : (s.setExec e).params = s.params := rfl
@[simp] theorem State.setExec_draws (e : RunState) : (s.setExec e).draws = s.draws := rfl
@[simp] theorem State.setExec_pending (e : RunState) : (s.setExec e).pending = s.pending := rfl
@[simp] theorem State.setExec_getV (e : RunState) (z : Nib) : (s.setExec e).getV z = s.getV z := rfl
@[simp] theorem State.setExec_key (e : RunState) (z : Nib) : (s.setExec e).key z = s.key z := rfl
@[simp] theorem State.setExec_readByte (e : RunState) (z : Nat) : (s.setExec e).readByte z = s.readByte z := rfl
@[simp] theorem State.setExec_fbAt (e : RunState) (cx cy : Nat) : (s.setExec e).fbAt cx cy = s.fbAt cx cy := rfl
@[simp] theorem State.setExec_ipc (e : RunState) : (s.setExec e).ipc = s.ipc := rfl

/-! ### setPending -/

@[simp] theorem State.setPending_v (l : List Event) : (s.setPending l).v = s.v := rfl
@[simp] theorem State.setPending_i (l : List Event) : (s.setPending l).i = s.i := rfl
@[simp] theorem State.setPending_pc (l : List Event) : (s.setPending l).pc = s.pc := rfl
@[simp] theorem State.setPending_stack (l : List Event) : (s.setPending l).stack = s.stack := rfl
@[simp] theorem State.setPending_dt (l : List Event) : (s.setPending l).dt = s.dt := rfl
@[simp] theorem State.setPending_st (l : List Event) : (s.setPending l).st = s.st := rfl
@[simp] theorem State.setPending_tacc (l : List Event) : (s.setPending l).tacc = s.tacc := rfl
@[simp] theorem State.setPending_fb (l : List Event) : (s.setPending l).fb = s.fb := rfl
@[simp] theorem State.setPending_keys (l : List Event) : (s.setPending l).keys = s.keys := rfl
@[simp] theorem State.setPending_last (l : List Event) : (s.setPending l).last = s.last := rfl
@[simp] theorem State.setPending_exec (l : List Event) : (s.setPending l).exec = s.exec := rfl
@[simp] theorem State.setPending_fault (l : List Event) : (s.setPending l).fault = s.fault := rfl
@[simp] theorem State.setPending_wait (l : List Event) : (s.setPending l).wait = s.wait := rfl
@[simp] theorem State.setPending_dispEv (l : List Event) : (s.setPending l).dispEv = s.dispEv := rfl
@[simp] theorem State.setPending_diag (l : List Event) : (s.setPending l).diag = s.diag := rfl
@[simp] theorem State.setPending_mem (l : List Event) : (s.setPending l).mem = s.mem := rfl
@[simp] theorem State.setPending_params (l : List Event) : (s.setPending l).params = s.params := rfl
@[simp] theorem State.setPending_draws (l : List Event) : (s.setPending l).draws = s.draws := rfl
@[simp] theorem State.setPending_pending (l : List Event) : (s.setPending l).pending = l := rfl
@[simp] theorem State.setPending_getV (l : List Event) (z : Nib) : (s.setPending l).getV z = s.getV z := rfl
@[simp] theorem State.setPending_key (l : List Event) (z : Nib) : (s.setPending l).key z = s.key z := rfl
@[simp] theorem State.setPending_readByte (l : List Event) (z : Nat) : (s.setPending l).readByte z = s.readByte z := rfl
@[simp] theorem State.setPending_fbAt (l : List Event) (cx cy : Nat) : (s.setPending l).fbAt cx cy = s.fbAt cx cy := rfl
@[simp] theorem State.setPending_ipc (l : List Event) : (s.setPending l).ipc = s.ipc := rfl

/-! ### dropEvent -/

@[simp] theorem State.dropEvent_v : (s.dropEvent).v = s.v := rfl
@[simp] theorem State.dropEvent_i : (s.dropEvent).i = s.i := rfl
@[simp] theorem State.dropEvent_pc : (s.dropEvent).pc = s.pc := rfl
@[simp] theorem State.dropEvent_stack : (s.dropEvent).stack = s.stack := rfl
@[simp] theorem State.dropEvent_dt : (s.dropEvent).dt = s.dt := rfl
@[simp] theorem State.dropEvent_st : (s.dropEvent).st = s.st := rfl
@[simp] theorem State.dropEvent_tacc : (s.dropEvent).tacc = s.tacc := rfl
@[simp] theorem State.dropEvent_fb : (s.dropEvent).fb = s.fb := rfl
@[simp] theorem State.dropEvent_keys : (s.dropEvent).keys = s.keys := rfl
@[simp] theorem State.dropEvent_last : (s.dropEvent).last = s.last := rfl
@[simp] theorem State.dropEvent_exec : (s.dropEvent).exec = s.exec := rfl
@[simp] theorem State.dropEvent_fault : (s.dropEvent).fault = s.fault := rfl
@[simp] theorem State.dropEvent_wait : (s.dropEvent).wait = s.wait := rfl
@[simp] theorem State.dropEvent_dispEv : (s.dropEvent).dispEv = s.dispEv := rfl
@[simp] theorem State.dropEvent_diag : (s.dropEvent).diag = s.diag := rfl
@[simp] theorem State.dropEvent_mem : (s.dropEvent).mem = s.mem := rfl
@[simp] theorem State.dropEvent_params : (s.dropEvent).params = s.params := rfl
@[simp] theorem State.dropEvent_draws : (s.dropEvent).draws = s.draws := rfl
@[simp] theorem State.dropEvent_pending : (s.dropEvent).pending = s.pending.tail := rfl
@[simp] theorem State.dropEvent_getV (z : Nib) : (s.dropEvent).getV z = s.getV z := rfl
@[simp] theorem State.dropEvent_key (z : Nib) : (s.dropEvent).key z = s.key z := rfl
@[simp] theorem State.dropEvent_readByte (z : Nat) : (s.dropEvent).readByte z = s.readByte z := rfl
@[simp] theorem State.dropEvent_fbAt (cx cy : Nat) : (s.dropEvent).fbAt cx cy = s.fbAt cx cy := rfl
@[simp] theorem State.dropEvent_ipc : (s.dropEvent).ipc = s.ipc := rfl

/-! ### skipIf -/

/-- Either way the condition falls, only `PC` may move (41_flow.md R180). -/
theorem State.skipIf_eq (c : Bool) : s.skipIf c = s.setPc (if c then s.pc + 2 else s.pc) := by
  cases c <;> rfl

end Sys2Proof.Machine
end

