-- ==== Sys2Proof/Laws/Ops.lean ====
section
/-! SUPPORT. One lemma per shared operation that says everything it can do. -/

namespace Sys2Proof.Machine

/-! ## General registers -/

/-- A register reads what was last written to it (10_state.md R30). -/
theorem State.getV_setV (s : State) (x : Nib) (b : Byte) (k : Nib) :
    (s.setV x b).getV k = if k = x then b else s.getV k := by
  simp only [State.getV, State.setV, Vector.getElem_set, BitVec.toNat_inj]
  by_cases h : x = k
  · simp [h]
  · simp [h, Ne.symm h]

/-- After a result and a flag: the flag stands in `VF` (42_alu.md R213). -/
theorem State.getV_setVFlag (s : State) (x : Nib) (r : Byte) (f : Bool) (k : Nib) :
    (s.setVFlag x r f).getV k = if k = vf then flagByte f else if k = x then r else s.getV k := by
  simp only [State.setVFlag, State.getV_setV]

/-- After a shift: the flag in `VF`, the result in both registers (42_alu.md R208, R210). -/
theorem State.getV_setVVFlag (s : State) (x y : Nib) (r : Byte) (f : Bool) (k : Nib) :
    (s.setVVFlag x y r f).getV k =
      if k = vf then flagByte f else if k = x ∨ k = y then r else s.getV k := by
  simp only [State.setVVFlag, State.getV_setVFlag, State.getV_setV]
  by_cases h1 : k = vf <;> by_cases h2 : k = x <;> by_cases h3 : k = y <;> simp_all

/-- Registers written in order hold those bytes, the rest what they held. -/
theorem getElem_writeRegs (bs : List Byte) (v : Vector Byte 16) (k j : Nat) (hj : j < 16) :
    (writeRegs v k bs)[j] = if k ≤ j ∧ j < k + bs.length then bs.getD (j - k) 0 else v[j] := by
  induction bs generalizing v k with
  | nil =>
    simp only [writeRegs, List.length_nil, Nat.add_zero]
    rw [if_neg (by omega)]
  | cons b bs ih =>
    simp only [writeRegs, List.length_cons, ih, Vector.getElem_setIfInBounds]
    by_cases h1 : k = j
    · subst h1
      rw [if_neg (by omega), if_pos rfl, if_pos (by omega)]
      simp
    · by_cases h2 : k + 1 ≤ j ∧ j < k + 1 + bs.length
      · rw [if_pos h2, if_pos (by omega), show j - k = (j - (k + 1)) + 1 by omega,
          List.getD_cons_succ]
      · rw [if_neg h2, if_neg h1, if_neg (by omega)]

/-- `V[0], V[1], ...` after they were written with bytes. -/
theorem State.getV_setVs (s : State) (bs : List Byte) (k : Nib) :
    (s.setVs bs).getV k = if k.toNat < bs.length then bs.getD k.toNat 0 else s.getV k := by
  simp only [State.getV, State.setVs, getElem_writeRegs]
  simp

/-- `V[0] .. V[x]` are `x + 1` bytes. -/
@[simp] theorem State.length_getVs (s : State) (x : Nib) : (s.getVs x).length = x.toNat + 1 := by
  simp [State.getVs]

/-- The `k`-th of `V[0] .. V[x]`. -/
theorem State.getD_getVs (s : State) (x : Nib) (k : Nat) (h : k ≤ x.toNat) :
    (s.getVs x).getD k 0 = s.getV (BitVec.ofNat 4 k) := by
  rw [State.getVs, List.getD_eq_getElem?_getD, List.getElem?_map,
    List.getElem?_range (by omega)]
  rfl

/-! ## The range check and the accesses it guards -/

/-- `CheckRange` answers `none` exactly when the range is empty or lies in memory (43_index_memory.md
R231). -/
theorem checkRange_eq_none (lo n : Nat) : checkRange lo n = none ↔ n = 0 ∨ lo + n ≤ Config.memSize := by
  simp only [checkRange, Config.memSize_eq]
  split <;> simp <;> omega

/-- Otherwise it answers the lowest address out of bounds. -/
theorem checkRange_eq_some (lo n : Nat) (h : n ≠ 0 ∧ Config.memSize < lo + n) :
    checkRange lo n = some (max lo Config.memSize) := by
  simp only [checkRange]
  rw [if_pos (by omega)]

/-- A read of bytes in memory answers them. -/
theorem State.loadBytes_ok (s : State) (lo n : Nat) (h : n = 0 ∨ lo + n ≤ Config.memSize) :
    s.loadBytes lo n = .ok ((List.range n).map fun k => s.readByte (lo + k)) := by
  simp only [State.loadBytes, (checkRange_eq_none lo n).2 h]

/-- A read that leaves memory answers the lowest address out of bounds. -/
theorem State.loadBytes_error (s : State) (lo n : Nat) (h : n ≠ 0 ∧ Config.memSize < lo + n) :
    s.loadBytes lo n = .error (max lo Config.memSize) := by
  simp only [State.loadBytes, checkRange_eq_some lo n h]

/-- A write of bytes into memory answers the machine with them written. -/
theorem State.storeBytes_ok (s : State) (lo : Nat) (vs : List Byte)
    (h : vs.length = 0 ∨ lo + vs.length ≤ Config.memSize) :
    s.storeBytes lo vs = .ok (s.setMem (s.mem.writeList lo vs)) := by
  simp only [State.storeBytes, (checkRange_eq_none lo vs.length).2 h]

/-- A write that leaves memory answers the lowest address out of bounds. -/
theorem State.storeBytes_error (s : State) (lo : Nat) (vs : List Byte)
    (h : vs.length ≠ 0 ∧ Config.memSize < lo + vs.length) :
    s.storeBytes lo vs = .error (max lo Config.memSize) := by
  simp only [State.storeBytes, checkRange_eq_some lo vs.length h]

/-- Every write of bytes is one of the two. -/
theorem State.storeBytes_cases (s : State) (lo : Nat) (vs : List Byte) :
    ((vs.length = 0 ∨ lo + vs.length ≤ Config.memSize) ∧
      s.storeBytes lo vs = .ok (s.setMem (s.mem.writeList lo vs))) ∨
    ((vs.length ≠ 0 ∧ Config.memSize < lo + vs.length) ∧
      s.storeBytes lo vs = .error (max lo Config.memSize)) := by
  by_cases h : vs.length = 0 ∨ lo + vs.length ≤ Config.memSize
  · exact .inl ⟨h, s.storeBytes_ok lo vs h⟩
  · exact .inr ⟨by omega, s.storeBytes_error lo vs (by omega)⟩

/-- Every read of bytes is one of the two. -/
theorem State.loadBytes_cases (s : State) (lo n : Nat) :
    ((n = 0 ∨ lo + n ≤ Config.memSize) ∧
      s.loadBytes lo n = .ok ((List.range n).map fun k => s.readByte (lo + k))) ∨
    ((n ≠ 0 ∧ Config.memSize < lo + n) ∧ s.loadBytes lo n = .error (max lo Config.memSize)) := by
  by_cases h : n = 0 ∨ lo + n ≤ Config.memSize
  · exact .inl ⟨h, s.loadBytes_ok lo n h⟩
  · exact .inr ⟨by omega, s.loadBytes_error lo n (by omega)⟩

/-! ## The stack -/

/-- `Push` with room (10_state.md R36). -/
theorem State.push_room (s : State) (a : Word) (h : s.stack.length < Config.stackDepth) :
    s.push a = some (s.setStack (s.stack ++ [a])) := by simp only [State.push, if_pos h]

/-- `Push` on a full stack (10_state.md R36). -/
theorem State.push_full (s : State) (a : Word) (h : Config.stackDepth ≤ s.stack.length) :
    s.push a = none := by simp only [State.push]; rw [if_neg (by omega)]

/-- `Pop` takes the newest entry (10_state.md R36). -/
theorem State.pop_append (s : State) (l : List Word) (a : Word) (h : s.stack = l ++ [a]) :
    s.pop = some (a, s.setStack l) := by simp [State.pop, h]

/-- `Pop` on an empty stack (10_state.md R36). -/
theorem State.pop_empty (s : State) (h : s.stack = []) : s.pop = none := by simp [State.pop, h]

/-! ## The latch -/

/-- A key reads what the latch last took for it (10_state.md R40). -/
theorem State.key_setKey (s : State) (k : Nib) (p : Bool) (j : Nib) :
    (s.setKey k p).key j = if j = k then p else s.key j := by
  simp only [State.key, State.setKey, Vector.getElem_set, BitVec.toNat_inj]
  by_cases h : k = j
  · simp [h]
  · simp [h, Ne.symm h]

/-- Every key is released exactly when each reads false. -/
theorem State.allReleased_iff (s : State) : s.allReleased = true ↔ ∀ k, s.key k = false := by
  simp only [State.allReleased, List.all_eq_true, Bool.not_eq_eq_eq_not, Bool.not_true, State.key]
  constructor
  · intro h k
    exact h _ (by simp)
  · intro h b hb
    obtain ⟨n, hn, rfl⟩ := List.getElem_of_mem hb
    have hn' : n < 16 := by simpa using hn
    have := h (BitVec.ofNat 4 n)
    have e : (BitVec.ofNat 4 n).toNat = n := by simp; omega
    simpa [e] using this

/-- The key a byte names (45_timer_input.md R293): none when it is above 15. -/
theorem State.keyPressed_eq (s : State) (b : Byte) :
    s.keyPressed b = (decide (b.toNat ≤ 15) && s.key (BitVec.ofNat 4 b.toNat)) := by
  have : b.extractLsb' 0 4 = BitVec.ofNat 4 b.toNat := by
    apply BitVec.eq_of_toNat_eq
    simp [BitVec.extractLsb'_toNat]
  simp only [State.keyPressed, this]

end Sys2Proof.Machine
end

