-- ==== Sys2Proof/Laws/Display.lean ====
section
/-! SUPPORT. What a draw does: the pixel loop as a list of distinct cells, each flipped once
(44_display.md R262 to R266). -/

namespace Sys2Proof.Machine

/-! ## One cell -/

/-- A cell of the clear framebuffer is 0. -/
@[simp] theorem FrameBuf.get_clear (x y : Nat) : FrameBuf.get FrameBuf.clear x y = false := by
  simp only [FrameBuf.get, FrameBuf.clear]
  split <;> simp

/-- A flip changes its own cell and no other. -/
theorem FrameBuf.get_flip (fb : FrameBuf) (x y cx cy : Nat) (hx : x < 64) (hy : y < 32) :
    FrameBuf.get (FrameBuf.flip fb x y) cx cy = (FrameBuf.get fb cx cy ^^ decide ((cx, cy) = (x, y))) := by
  simp only [FrameBuf.get, FrameBuf.flip, hy, ↓reduceDIte, Prod.mk.injEq]
  by_cases hcy : cy < 32
  · simp only [hcy, ↓reduceDIte, Vector.getElem_set]
    by_cases h : y = cy
    · subst h
      simp only [↓reduceIte, BitVec.getLsbD_xor, BitVec.getLsbD_twoPow, and_true]
      by_cases h2 : cx = x
      · subst h2; simp [hx]
      · simp [h2, Ne.symm h2]
    · simp [h, Ne.symm h]
  · have : cy ≠ y := by omega
    simp [hcy, this]

/-- Flip one cell and note whether it was set. -/
def drawCell (d : FrameBuf × Bool) (c : Nat × Nat) : FrameBuf × Bool :=
  (FrameBuf.flip d.1 c.1 c.2, d.2 || FrameBuf.get d.1 c.1 c.2)

/-- Where a pixel at `p` on an axis of `size` cells lands (44_display.md R264). -/
def landing (edge : DrawEdge) (size p : Nat) : Option Nat :=
  match edge with
  | .clip => if p < size then some p else none
  | .wrap => some (p % size)

/-- The cell a pixel lands on. -/
def landingCell (edge : DrawEdge) (px py : Nat) : Option (Nat × Nat) :=
  match landing edge 64 px, landing edge 32 py with
  | some x, some y => some (x, y)
  | _, _ => none

/-- A pixel flips the cell it lands on, or does nothing. -/
theorem drawPixel_eq (edge : DrawEdge) (px py : Nat) (d : FrameBuf × Bool) :
    drawPixel edge px py d = ((landingCell edge px py).toList).foldl drawCell d := by
  cases edge
  · by_cases hx : px < 64
    · by_cases hy : py < 32
      · have : ¬(Config.fbW ≤ px ∨ Config.fbH ≤ py) := by simp only [Config.fbW, Config.fbH]; omega
        simp [drawPixel, landingCell, landing, hx, hy, drawCell, this, Nat.mod_eq_of_lt]
      · simp [drawPixel, landingCell, landing, hx, hy]
    · simp [drawPixel, landingCell, landing, hx]
  · simp [drawPixel, landingCell, landing, drawCell]

/-! ## A sprite as a list of cells -/

/-- The cells a sprite row's set bits land on. -/
def rowCells (edge : DrawEdge) (x0 py : Nat) (b : Byte) : List (Nat × Nat) :=
  (List.range 8).filterMap fun j => if b.getLsbD (7 - j) then landingCell edge (x0 + j) py else none

/-- The cells a sprite's set bits land on. -/
def spriteCells (edge : DrawEdge) (x0 py : Nat) : List Byte → List (Nat × Nat)
  | [] => []
  | b :: bs => rowCells edge x0 py b ++ spriteCells edge x0 (py + 1) bs

theorem drawRow_eq (edge : DrawEdge) (x0 py : Nat) (b : Byte) (d : FrameBuf × Bool) :
    drawRow edge x0 py b d = (rowCells edge x0 py b).foldl drawCell d := by
  simp only [drawRow, rowCells, List.foldl_filterMap]
  congr 1
  funext d j
  split
  · rw [drawPixel_eq]
    cases landingCell edge (x0 + j) py <;> rfl
  · rfl

theorem drawRows_eq (edge : DrawEdge) (x0 py : Nat) (bs : List Byte) (d : FrameBuf × Bool) :
    drawRows edge x0 py bs d = (spriteCells edge x0 py bs).foldl drawCell d := by
  induction bs generalizing py d with
  | nil => rfl
  | cons b bs ih => simp only [drawRows, spriteCells, List.foldl_append, ih, drawRow_eq]

/-- Flipping distinct cells of the grid: each is flipped, no other; the flag says whether one was set. -/
theorem foldl_drawCell (l : List (Nat × Nat)) (d : FrameBuf × Bool) (hn : l.Nodup)
    (hl : ∀ c ∈ l, c.1 < 64 ∧ c.2 < 32) :
    (∀ cx cy, FrameBuf.get (l.foldl drawCell d).1 cx cy =
      (FrameBuf.get d.1 cx cy ^^ decide ((cx, cy) ∈ l))) ∧
    ((l.foldl drawCell d).2 = true ↔ d.2 = true ∨ ∃ c ∈ l, FrameBuf.get d.1 c.1 c.2 = true) := by
  induction l generalizing d with
  | nil => simp
  | cons c l ih =>
    obtain ⟨hc, hn⟩ := List.nodup_cons.1 hn
    have hcl := hl c (by simp)
    have ih' := ih (drawCell d c) hn (fun e he => hl e (by simp [he]))
    have hflip : ∀ cx cy, FrameBuf.get (drawCell d c).1 cx cy =
        (FrameBuf.get d.1 cx cy ^^ decide ((cx, cy) = c)) := fun cx cy =>
      FrameBuf.get_flip d.1 c.1 c.2 cx cy hcl.1 hcl.2
    constructor
    · intro cx cy
      rw [List.foldl_cons, ih'.1, hflip]
      by_cases h1 : (cx, cy) = c
      · rw [h1]; simp [hc]
      · simp [h1]
    · rw [List.foldl_cons, ih'.2]
      simp only [drawCell, Bool.or_eq_true, List.mem_cons, exists_eq_or_imp, or_assoc]
      refine or_congr_right (or_congr_right ⟨?_, ?_⟩)
      · rintro ⟨e, he, hs⟩
        have : e ≠ c := fun h => hc (h ▸ he)
        exact ⟨e, he, by simpa [this] using (hflip e.1 e.2).symm.trans hs⟩
      · rintro ⟨e, he, hs⟩
        have : e ≠ c := fun h => hc (h ▸ he)
        exact ⟨e, he, (hflip e.1 e.2).trans (by simpa [this] using hs)⟩

/-- A pixel lands on `c` exactly when `c` is on the axis and lies that far past the start. -/
theorem landing_eq_some (edge : DrawEdge) (size x0 j c : Nat) (h0 : x0 < size) (hj : j < size) :
    landing edge size (x0 + j) = some c ↔ c < size ∧ axisOffset edge size x0 c = some j := by
  cases edge
  · by_cases h : x0 + j < size <;> by_cases h2 : x0 ≤ c <;> simp [landing, axisOffset, h, h2] <;> omega
  · simp only [landing, axisOffset, Option.some.injEq]
    by_cases h : x0 + j < size
    · rw [Nat.mod_eq_of_lt h]
      constructor
      · rintro rfl
        refine ⟨h, ?_⟩
        rw [show x0 + j + size - x0 = j + size by omega, Nat.add_mod_right, Nat.mod_eq_of_lt hj]
      · rintro ⟨hc, he⟩
        by_cases h2 : c < x0
        · rw [Nat.mod_eq_of_lt (by omega)] at he; omega
        · rw [show c + size - x0 = c - x0 + size by omega, Nat.add_mod_right,
            Nat.mod_eq_of_lt (by omega)] at he
          omega
    · rw [show x0 + j = x0 + j - size + size by omega, Nat.add_mod_right,
        Nat.mod_eq_of_lt (by omega)]
      constructor
      · rintro rfl
        refine ⟨by omega, ?_⟩
        rw [Nat.mod_eq_of_lt (by omega)]; omega
      · rintro ⟨hc, he⟩
        by_cases h2 : c < x0
        · rw [Nat.mod_eq_of_lt (by omega)] at he; omega
        · rw [show c + size - x0 = c - x0 + size by omega, Nat.add_mod_right,
            Nat.mod_eq_of_lt (by omega)] at he
          omega

theorem landingCell_eq_some (edge : DrawEdge) (px py : Nat) (c : Nat × Nat) :
    landingCell edge px py = some c ↔
      landing edge 64 px = some c.1 ∧ landing edge 32 py = some c.2 := by
  obtain ⟨x, y⟩ := c
  simp only [landingCell]
  cases landing edge 64 px <;> cases landing edge 32 py <;> simp

theorem mem_rowCells (edge : DrawEdge) (x0 py : Nat) (b : Byte) (c : Nat × Nat) (h0 : x0 < 64) :
    c ∈ rowCells edge x0 py b ↔
      landing edge 32 py = some c.2 ∧ c.1 < 64 ∧
        ∃ j < 8, axisOffset edge 64 x0 c.1 = some j ∧ b.getLsbD (7 - j) = true := by
  simp only [rowCells, List.mem_filterMap, List.mem_range]
  constructor
  · rintro ⟨j, hj, h⟩
    split at h
    · rename_i hb
      have := (landingCell_eq_some edge _ _ c).1 h
      have h2 := (landing_eq_some edge 64 x0 j c.1 h0 (by omega)).1 this.1
      exact ⟨this.2, h2.1, j, hj, h2.2, hb⟩
    · cases h
  · rintro ⟨h1, h2, j, hj, h3, hb⟩
    refine ⟨j, hj, ?_⟩
    rw [if_pos hb]
    exact (landingCell_eq_some edge _ _ c).2
      ⟨(landing_eq_some edge 64 x0 j c.1 h0 (by omega)).2 ⟨h2, h3⟩, h1⟩

theorem nodup_rowCells (edge : DrawEdge) (x0 py : Nat) (b : Byte) (h0 : x0 < 64) :
    (rowCells edge x0 py b).Nodup := by
  refine (List.pairwise_filterMap).2 (List.nodup_range.imp_of_mem ?_)
  intro j k hj hk hne c hc c' hc' he
  subst he
  simp only [List.mem_range] at hj hk
  have hland : ∀ m, m < 8 → (if b.getLsbD (7 - m) then landingCell edge (x0 + m) py else none) = some c →
      axisOffset edge 64 x0 c.1 = some m := by
    intro m hm h
    split at h
    · exact ((landing_eq_some edge 64 x0 m c.1 h0 (by omega)).1
        ((landingCell_eq_some edge _ _ c).1 h).1).2
    · cases h
  have h1 := hland j hj hc
  have h2 := hland k hk hc'
  rw [h1] at h2
  exact hne (by simpa using h2)

/-- A cell is drawn by a sprite of fewer than 32 rows exactly when the sprite's bit for it is set. -/
theorem mem_spriteCells (edge : DrawEdge) (x0 y0 k : Nat) (bs : List Byte) (c : Nat × Nat)
    (h0 : x0 < 64) (h1 : y0 < 32) (hk : k + bs.length ≤ 32) :
    c ∈ spriteCells edge x0 (y0 + k) bs ↔
      c.1 < 64 ∧ c.2 < 32 ∧ ∃ j < 8, ∃ r < bs.length, axisOffset edge 64 x0 c.1 = some j ∧
        axisOffset edge 32 y0 c.2 = some (k + r) ∧ (bs.getD r 0).getLsbD (7 - j) = true := by
  induction bs generalizing k with
  | nil => simp [spriteCells]
  | cons b bs ih =>
    simp only [List.length_cons] at hk
    simp only [spriteCells, List.mem_append, mem_rowCells edge x0 (y0 + k) b c h0,
      landing_eq_some edge 32 y0 k c.2 h1 (by omega), Nat.add_assoc y0 k 1,
      ih (k + 1) (by omega)]
    constructor
    · rintro (⟨⟨h2, h3⟩, h4, j, hj, h5, hb⟩ | ⟨h2, h3, j, hj, r, hr, h4, h5, hb⟩)
      · exact ⟨h4, h2, j, hj, 0, by simp, h5, by simpa using h3, by simpa using hb⟩
      · exact ⟨h2, h3, j, hj, r + 1, by simp; omega, h4,
          by rw [h5]; congr 1; omega, by simpa using hb⟩
    · rintro ⟨h2, h3, j, hj, r, hr, h4, h5, hb⟩
      cases r with
      | zero => exact .inl ⟨⟨h3, by simpa using h5⟩, h2, j, hj, h4, by simpa using hb⟩
      | succ r =>
        exact .inr ⟨h2, h3, j, hj, r, by simpa using hr, h4,
          by rw [h5]; congr 1; omega, by simpa using hb⟩

theorem nodup_spriteCells (edge : DrawEdge) (x0 y0 k : Nat) (bs : List Byte)
    (h0 : x0 < 64) (h1 : y0 < 32) (hk : k + bs.length ≤ 32) :
    (spriteCells edge x0 (y0 + k) bs).Nodup := by
  induction bs generalizing k with
  | nil => simp [spriteCells]
  | cons b bs ih =>
    simp only [List.length_cons] at hk
    simp only [spriteCells, Nat.add_assoc y0 k 1]
    refine List.nodup_append.2 ⟨nodup_rowCells edge x0 _ b h0, ih (k + 1) (by omega), ?_⟩
    rintro c hc d hd rfl
    have h2 := ((mem_rowCells edge x0 (y0 + k) b c h0).1 hc).1
    have h3 := ((landing_eq_some edge 32 y0 k c.2 h1 (by omega)).1 h2).2
    obtain ⟨_, _, j, hj, r, hr, _, h4, _⟩ :=
      (mem_spriteCells edge x0 y0 (k + 1) bs c h0 h1 (by omega)).1 hd
    rw [h3] at h4
    have : k = k + 1 + r := by simpa using h4
    omega

/-- The draw loop of DXYN over the bytes at `I`: each cell is XORed with the sprite bit aimed at it, and
the flag says whether a sprite bit hit a set cell (44_display.md R262 to R266). -/
theorem drawRows_spec (s : State) (x0 y0 n : Nat) (h0 : x0 < 64) (h1 : y0 < 32) (hn : n ≤ 32) :
    let d := drawRows s.params.drawEdge x0 y0
      ((List.range n).map fun k => s.readByte (s.indexAddr + k)) (s.fb, false)
    (∀ cx < 64, ∀ cy < 32, FrameBuf.get d.1 cx cy = (s.fbAt cx cy ^^ s.spriteBit x0 y0 n cx cy)) ∧
    (d.2 = true ↔ s.Collides x0 y0 n) := by
  set bs := (List.range n).map fun k => s.readByte (s.indexAddr + k) with hbs
  have hlen : bs.length = n := by simp [hbs]
  have hbit : ∀ r < n, ∀ j, (bs.getD r 0).getLsbD (7 - j) =
      (s.readByte (s.i.toNat + r)).getLsbD (7 - j) := by
    intro r hr j
    rw [hbs, List.getD_eq_getElem?_getD, List.getElem?_map, List.getElem?_range hr]
    rfl
  have hmem := mem_spriteCells s.params.drawEdge x0 y0 0 bs
  have hnd := nodup_spriteCells s.params.drawEdge x0 y0 0 bs h0 h1 (by omega)
  simp only [Nat.add_zero, Nat.zero_add, hlen] at hmem hnd
  have hcell : ∀ c, c ∈ spriteCells s.params.drawEdge x0 y0 bs ↔
      c.1 < 64 ∧ c.2 < 32 ∧ s.spriteBit x0 y0 n c.1 c.2 = true := by
    intro c
    rw [hmem c h0 h1 hn]
    simp only [State.spriteBit, Config.fbW_eq, Config.fbH_eq]
    refine and_congr_right fun _ => and_congr_right fun _ => ?_
    constructor
    · rintro ⟨j, hj, r, hr, e1, e2, hb⟩
      rw [hbit r hr] at hb
      simp [e1, e2, hj, hr, hb]
    · intro h
      split at h
      · rename_i j r e1 e2
        simp only [Bool.and_eq_true, decide_eq_true_eq] at h
        exact ⟨j, h.1.1, r, h.1.2, e1, e2, (hbit r h.1.2 j).trans h.2⟩
      · cases h
  have hf := foldl_drawCell _ (s.fb, false) hnd
    (fun c hc => ⟨((hcell c).1 hc).1, ((hcell c).1 hc).2.1⟩)
  rw [← drawRows_eq] at hf
  refine ⟨fun cx hcx cy hcy => ?_, hf.2.trans ⟨?_, ?_⟩⟩
  · rw [hf.1]
    congr 1
    rw [Bool.eq_iff_iff, decide_eq_true_iff, hcell]
    simp [hcx, hcy]
  · rintro (h | ⟨c, hc, h⟩)
    · cases h
    · have := (hcell c).1 hc
      exact ⟨c.1, this.1, c.2, this.2.1, this.2.2, h⟩
  · rintro ⟨cx, hcx, cy, hcy, hb, h⟩
    exact .inr ⟨(cx, cy), (hcell _).2 ⟨hcx, hcy, hb⟩, h⟩

end Sys2Proof.Machine
end

