-- ==== Sys2Proof/Laws/Encoding.lean ====
section
/-! SUPPORT. How a row's encoding is shown from the opcode map (30_encoding.md R104, R105). -/

namespace Sys2Proof.Machine

/-- A row is encoded as claimed when the opcode map says so on the words its mask admits. -/
theorem encodedAs_of_opcodeMap (row : Nat) (bits mask : Word) (shadow : List Word) (mk : Fields → Instr)
    (h1 : (dispatchTable[row]?).map (fun r => (r.bits, r.mask)) = some (bits, mask))
    (h2 : ∀ a b c d : Nib, (a ++ b ++ c ++ d : Word) &&& mask = bits →
      (a ++ b ++ c ++ d : Word) ∉ shadow →
      opcodeMap a b c d = some (mk ⟨b ++ c ++ d, c ++ d, d, b, c⟩)) :
    EncodedAs row bits mask shadow mk := by
  refine ⟨h1, Word.forall_nibbles ?_⟩
  intro a b c d h3 h4
  rw [decodeWord_nibbles, h2 a b c d h3 h4, fieldsOf_nibbles]

theorem matches_iff (r : Row) (w : Word) : r.matches w = true ↔ w &&& r.mask = r.bits := by
  simp [Row.matches]

/-- Words of mask 0xF000, by their first nibble. -/
theorem and_F000 {a b c d k : Nib} {bits : Word} (e : bits = (k ++ 0#4 ++ 0#4 ++ 0#4 : Word)) :
    ((a ++ b ++ c ++ d : Word) &&& 0xF000 = bits) ↔ a = k := by
  rw [← matches_iff ⟨bits, 0xF000, fun _ => .cls⟩, row_F000 k a b c d bits (fun _ => .cls) e,
    decide_eq_true_iff]

/-- Words of mask 0xF00F, by their outer nibbles. -/
theorem and_F00F {a b c d k l : Nib} {bits : Word} (e : bits = (k ++ 0#4 ++ 0#4 ++ l : Word)) :
    ((a ++ b ++ c ++ d : Word) &&& 0xF00F = bits) ↔ a = k ∧ d = l := by
  rw [← matches_iff ⟨bits, 0xF00F, fun _ => .cls⟩, row_F00F k l a b c d bits (fun _ => .cls) e,
    decide_eq_true_iff]

/-- Words of mask 0xF0FF, by all nibbles but `X`. -/
theorem and_F0FF {a b c d k l m : Nib} {bits : Word} (e : bits = (k ++ 0#4 ++ l ++ m : Word)) :
    ((a ++ b ++ c ++ d : Word) &&& 0xF0FF = bits) ↔ a = k ∧ c = l ∧ d = m := by
  rw [← matches_iff ⟨bits, 0xF0FF, fun _ => .cls⟩, row_F0FF k l m a b c d bits (fun _ => .cls) e,
    decide_eq_true_iff]

/-- Words of mask 0xFFFF are one word. -/
theorem and_FFFF {a b c d k j l m : Nib} {bits : Word} (e : bits = (k ++ j ++ l ++ m : Word)) :
    ((a ++ b ++ c ++ d : Word) &&& 0xFFFF = bits) ↔ a = k ∧ b = j ∧ c = l ∧ d = m := by
  rw [← matches_iff ⟨bits, 0xFFFF, fun _ => .cls⟩, row_FFFF k j l m a b c d bits (fun _ => .cls) e,
    decide_eq_true_iff]

end Sys2Proof.Machine
end

