-- ==== Sys2Proof/Laws/Events.lean ====
section
/-! SUPPORT. What the operations behind the events do (60_exceptions.md R340, R350, R351;
70_reset_and_hazards.md R380 to R385), and one step of a run. -/

namespace Sys2Proof.Machine

/-! ## Time -/

/-- A timer runs down to 0 and no further (60_exceptions.md R340). -/
@[simp] theorem toNat_timerMinus (t : Byte) (n : Nat) : (timerMinus t n).toNat = t.toNat - n := by
  have := t.isLt
  simp only [timerMinus, BitVec.toNat_ofNat]
  omega

/-- What a Time event does in `Running` (60_exceptions.md R340). -/
theorem State.elapse_running (s : State) (dt : Nat) (h : s.exec = .running) :
    s.elapse dt = s.setTimers ((s.tacc + 60 * dt) % 1000000000)
      (timerMinus s.dt ((s.tacc + 60 * dt) / 1000000000))
      (timerMinus s.st ((s.tacc + 60 * dt) / 1000000000)) := by
  simp only [State.elapse, h, Config.tickUnit_eq]

/-- Outside `Running` it does nothing (60_exceptions.md R341). -/
theorem State.elapse_frozen (s : State) (dt : Nat) (h : s.exec ≠ .running) : s.elapse dt = s := by
  simp only [State.elapse]
  cases hx : s.exec <;> simp_all

/-- Time does not look at the pending events. -/
theorem State.elapse_setPending (s : State) (dt : Nat) (l : List Event) :
    (s.setPending l).elapse dt = (s.elapse dt).setPending l := by
  by_cases h : s.exec = .running
  · rw [State.elapse_running _ _ h, State.elapse_running (s.setPending l) _ h]; rfl
  · rw [State.elapse_frozen _ _ h, State.elapse_frozen (s.setPending l) _ h]

/-! ## Keys -/

/-- The latch holds what was last reported of each key (60_exceptions.md R350). -/
theorem State.key_latch (s : State) (k : Nib) (p : Bool) (j : Nib) :
    (s.latch k p).key j = if j = k then p else s.key j := by
  simp only [State.latch]
  split
  · simp [State.key_setKey, *]
  · split <;> simp [State.key_setKey, *]

/-- `LAST` after a press, a release that leaves no key pressed, and another release (60_exceptions.md
R351). -/
theorem State.last_latch (s : State) (k : Nib) (p : Bool) :
    (s.latch k p).last =
      if p then some k else if (s.setKey k p).allReleased then none else s.last := by
  simp only [State.latch]
  split
  · rfl
  · split <;> rfl

/-- Nothing but the latch changes. -/
theorem State.latch_eq (s : State) (k : Nib) (p : Bool) :
    s.latch k p = (s.setKey k p).setLast (s.latch k p).last := by
  simp only [State.latch]
  split
  · rfl
  · split <;> rfl

/-- A Key event is the latch, and in a key wait on a fresh press the key's number in the register
(60_exceptions.md R350, 45_timer_input.md R296). -/
theorem State.keyEvent_cases (s : State) (k : Nib) (p : Bool) :
    (∃ x, s.wait = some x ∧ p = true ∧ s.key k = false ∧
      s.keyEvent k p = ((s.latch k p).setV x (k.zeroExtend 8)).setWait none) ∨
    ((s.wait = none ∨ ¬(p = true ∧ s.key k = false)) ∧ s.keyEvent k p = s.latch k p) := by
  simp only [State.keyEvent]
  cases hw : s.wait with
  | none => exact .inr ⟨.inl rfl, rfl⟩
  | some x =>
    by_cases hc : p = true ∧ s.key k = false
    · exact .inl ⟨x, rfl, hc.1, hc.2, by simp [hc]⟩
    · refine .inr ⟨.inr hc, ?_⟩
      refine if_neg ?_
      simpa using hc

/-! ## Load -/

/-- The font is the only thing a preload writes (70_reset_and_hazards.md R383). -/
theorem State.preloadFont_eq (s : State) :
    s.preloadFont = s.setMem (if s.params.fontPreload = true then
      s.mem.writeList s.params.fontBase.toNat s.params.fontGlyphs.toList else s.mem) := by
  simp only [State.preloadFont]
  split <;> rfl

/-- A Load that is no error answers the loaded machine (70_reset_and_hazards.md R385). -/
theorem loadEvent_ok (s : State) (img : List Byte) (h1 : 1 ≤ img.length) (h2 : img.length ≤ 3584)
    (h3 : s.params.fontPreload = true → s.params.FontFits) :
    loadEvent img s = .next (s.loadImage img) := by
  simp only [loadEvent, Config.maxImage_eq]
  rw [if_neg (by omega), if_neg (by omega), if_neg (by tauto)]

/-! ## Runs -/

/-- A run that begins with a step to `t` goes on from `t`. -/
theorem run_succ (n : Nat) (s t : State) (h : step s = .next t) :
    Host.Core.run core (n + 1) s = Host.Core.run core n t := by
  have : core.step s = .next t := h
  simp only [Host.Core.run, this]

end Sys2Proof.Machine
end

