-- ==== Sys2Proof/Laws/Exec.lean ====
section
/-! SUPPORT. What the instructions with a check of their own can do, and what one cycle can do: each says
it all, so that a proof over steps splits here once. -/

namespace Sys2Proof.Machine

/-! ## Instructions with a check (60_exceptions.md R320, R327) -/

/-- 00EE pops, or follows `RET_EMPTY_POLICY` (41_flow.md R171). -/
theorem execRet_cases (s : State) :
    (∃ l a, s.stack = l ++ [a] ∧ execRet s = .next ((s.setStack l).setPc a)) ∨
    (s.stack = [] ∧ s.params.retEmpty = .fault ∧
      execRet s = s.raiseIn .stackUnderflow (encode .ret) none) ∨
    (s.stack = [] ∧ s.params.retEmpty = .ignoreReported ∧
      execRet s = .next (s.addDiag .retEmpty s.ipc (encode .ret))) := by
  rcases List.eq_nil_or_concat s.stack with hl | ⟨l, a, hl⟩
  · cases hp : s.params.retEmpty
    · exact .inr (.inl ⟨hl, rfl, by simp only [execRet, s.pop_empty hl, hp]⟩)
    · exact .inr (.inr ⟨hl, rfl, by simp only [execRet, s.pop_empty hl, hp]⟩)
  · rw [List.concat_eq_append] at hl
    exact .inl ⟨l, a, hl, by simp only [execRet, s.pop_append l a hl]⟩

/-- 2NNN pushes, or faults on a full stack (41_flow.md R173). -/
theorem execCall_cases (s : State) (nnn : Addr) :
    (s.stack.length < 16 ∧
      execCall nnn s = .next ((s.setStack (s.stack ++ [s.pc])).setPc (addrWord nnn))) ∨
    (16 ≤ s.stack.length ∧
      execCall nnn s = s.raiseIn .stackOverflow (encode (.call nnn)) none) := by
  by_cases h : s.stack.length < 16
  · exact .inl ⟨h, by simp only [execCall, s.push_room s.pc h]⟩
  · exact .inr ⟨by omega, by simp only [execCall, s.push_full s.pc (by simpa using h)]⟩

/-- DXYN draws, or faults on sprite bytes out of bounds (44_display.md R262). -/
theorem execDrw_cases (s : State) (x y n : Nib) :
    ((n.toNat = 0 ∨ s.indexAddr + n.toNat ≤ 4096) ∧
      let d := drawRows s.params.drawEdge (s.startCol x) (s.startRow y)
        ((List.range n.toNat).map fun k => s.readByte (s.indexAddr + k)) (s.fb, false)
      execDrw x y n s = .next (((s.setFb d.1).setV vf (flagByte d.2)).countDisplay)) ∨
    ((n.toNat ≠ 0 ∧ 4096 < s.indexAddr + n.toNat) ∧
      execDrw x y n s =
        s.raiseIn .boundsData (encode (.drw x y n)) (some (max s.indexAddr 4096))) := by
  rcases s.loadBytes_cases s.indexAddr n.toNat with ⟨h, hl⟩ | ⟨h, hl⟩
  · exact .inl ⟨h, by simp only [execDrw, hl]⟩
  · exact .inr ⟨h, by simp only [execDrw, hl, Config.memSize_eq]⟩

/-- FX33 stores three digits, or faults (43_index_memory.md R234). -/
theorem execLdB_cases (s : State) (x : Nib) :
    (s.indexAddr + 3 ≤ 4096 ∧
      execLdB x s = .next (s.setMem (s.mem.writeList s.indexAddr (decimalDigits (s.getV x))))) ∨
    (4096 < s.indexAddr + 3 ∧
      execLdB x s = s.raiseIn .boundsData (encode (.ldB x)) (some (max s.indexAddr 4096))) := by
  rcases s.storeBytes_cases s.indexAddr (decimalDigits (s.getV x)) with ⟨h, hl⟩ | ⟨h, hl⟩
  · exact .inl ⟨by simpa [decimalDigits] using h, by simp only [execLdB, hl]⟩
  · exact .inr ⟨by simpa [decimalDigits] using h, by simp only [execLdB, hl, Config.memSize_eq]⟩

/-- FX55 stores `V[0] .. V[X]`, or faults (43_index_memory.md R235). -/
theorem execLdMemVx_cases (s : State) (x : Nib) :
    (s.indexAddr + (x.toNat + 1) ≤ 4096 ∧
      execLdMemVx x s =
        .next ((s.setMem (s.mem.writeList s.indexAddr (s.getVs x))).setI (s.indexPast x))) ∨
    (4096 < s.indexAddr + (x.toNat + 1) ∧
      execLdMemVx x s =
        s.raiseIn .boundsData (encode (.ldMemVx x)) (some (max s.indexAddr 4096))) := by
  rcases s.storeBytes_cases s.indexAddr (s.getVs x) with ⟨h, hl⟩ | ⟨h, hl⟩
  · exact .inl ⟨by simpa using h, by simp only [execLdMemVx, hl]⟩
  · exact .inr ⟨by simpa using h, by simp only [execLdMemVx, hl, Config.memSize_eq]⟩

/-- FX65 loads `V[0] .. V[X]`, or faults (43_index_memory.md R236). -/
theorem execLdVxMem_cases (s : State) (x : Nib) :
    (s.indexAddr + (x.toNat + 1) ≤ 4096 ∧
      execLdVxMem x s = .next ((s.setVs ((List.range (x.toNat + 1)).map fun k =>
        s.readByte (s.indexAddr + k))).setI (s.indexPast x))) ∨
    (4096 < s.indexAddr + (x.toNat + 1) ∧
      execLdVxMem x s =
        s.raiseIn .boundsData (encode (.ldVxMem x)) (some (max s.indexAddr 4096))) := by
  rcases s.loadBytes_cases s.indexAddr (x.toNat + 1) with ⟨h, hl⟩ | ⟨h, hl⟩
  · exact .inl ⟨by simpa using h, by simp only [execLdVxMem, hl]⟩
  · exact .inr ⟨by simpa using h, by simp only [execLdVxMem, hl, Config.memSize_eq]⟩

/-! ## A cycle (40_execution_loop.md R146, R147) -/

/-- In bounds nothing is wrong with a fetch (40_execution_loop.md R140). -/
theorem fetchFault_none (pc : Word) : fetchFault pc = none ↔ pc.toNat + 1 ≤ 0xFFF := by
  simp only [fetchFault]
  split <;> simp <;> omega

/-- A cycle that answers a next state was enabled, and did one of four things. -/
theorem cycle_cases (s t : State) (h : cycle s = .next t) :
    (s.exec = .running ∧ s.wait = none) ∧
    ((∃ a, 0x1000 ≤ a ∧ 0xFFF < s.pc.toNat + 1 ∧ t = s.raise .boundsFetch s.pc none (some a)) ∨
     (s.pc.toNat + 1 ≤ 0xFFF ∧
       ((∃ i, decodeWord s.fetchWord = .ok i ∧ exec i (s.setPc (s.pc + 2)) = .next t) ∨
        ((∀ i, decodeWord s.fetchWord ≠ .ok i) ∧
          ((s.params.decodeFault = .fault ∧
              t = (s.setPc (s.pc + 2)).raise .decode s.pc (some s.fetchWord) none) ∨
           (s.params.decodeFault = .skip ∧
              t = (s.setPc (s.pc + 2)).addDiag .decodeSkip s.pc s.fetchWord)))))) := by
  have hipc : (s.setPc (s.pc + 2)).ipc = s.pc := by simp [State.ipc]
  simp only [cycle] at h
  cases hx : s.exec <;> cases hw : s.wait <;> simp only [hx, hw, reduceCtorEq] at h
  refine ⟨⟨rfl, rfl⟩, ?_⟩
  simp only [runCycle] at h
  split at h
  · rename_i a ha
    cases h
    simp only [fetchFault] at ha
    split at ha
    · cases ha
      exact .inl ⟨_, Nat.le_max_right _ _, by omega, rfl⟩
    · cases ha
  · rename_i ha
    refine .inr ⟨(fetchFault_none _).1 ha, ?_⟩
    split at h
    · rename_i i hi
      exact .inl ⟨i, hi, h⟩
    · rename_i e he
      cases h
      refine .inr ⟨fun i hi => by simp [he] at hi, ?_⟩
      simp only [decodeFault, hipc, State.setPc_params]
      cases hp : s.params.decodeFault
      · exact .inl ⟨rfl, rfl⟩
      · exact .inr ⟨rfl, rfl⟩

/-! ## Sequences -/

/-- A sequence in two parts runs the first and then the second. -/
theorem execAll_append (l m : List (Word × Instr)) (s : State) :
    execAll (l ++ m) s =
      match execAll l s with
      | .next t => execAll m t
      | .fault r => .fault r
      | .refused r => .refused r := by
  induction l generalizing s with
  | nil => rfl
  | cons i l ih =>
    obtain ⟨pc, i⟩ := i
    simp only [List.cons_append, execAll]
    cases exec i (s.setPc pc) <;> simp [ih]

end Sys2Proof.Machine
end

