-- ==== Sys2Proof/Laws/PerInstr.lean ====
section
/-! SUPPORT. A statement for every instruction, one lemma per constructor: an instruction's word matches
its own row of the dispatch table (30_encoding.md R104, R105). -/

namespace Sys2Proof.Laws.MatchesOwnRow

/-- The instruction's word matches the opcode bits of the row it stands for under that row's mask. -/
def Statement (i : Instr) : Prop :=
  (dispatchTable[i.rowIndex]?).map (fun r => r.matches (encode i)) = some true

theorem ofA (op : Nib) (nnn : Addr) : encA op nnn &&& 0xF000 = encA op 0 := by
  rw [show (0xF000 : Word) = (15#4 ++ 0#12 : Word) from rfl, encA, BitVec.and_append, nib_and_F]
  simp [encA]

theorem ofXNN (op x : Nib) (nn : Byte) : encXNN op x nn &&& 0xF000 = encXNN op 0 0 := by
  rw [show (0xF000 : Word) = (15#4 ++ 0#4 ++ 0#8 : Word) from rfl, encXNN, BitVec.and_append,
    BitVec.and_append, nib_and_F]
  simp [encXNN]

theorem ofXY (op x y n : Nib) : encXYN op x y n &&& 0xF00F = encXYN op 0 0 n := by
  rw [show (0xF00F : Word) = (15#4 ++ 0#4 ++ 0#4 ++ 15#4 : Word) from rfl, encXYN, BitVec.and_append,
    BitVec.and_append, BitVec.and_append, nib_and_F, nib_and_F]
  simp [encXYN]

theorem ofXYN (op x y n : Nib) : encXYN op x y n &&& 0xF000 = encXYN op 0 0 0 := by
  rw [show (0xF000 : Word) = (15#4 ++ 0#4 ++ 0#4 ++ 0#4 : Word) from rfl, encXYN, BitVec.and_append,
    BitVec.and_append, BitVec.and_append, nib_and_F]
  simp [encXYN]

theorem ofX (op x : Nib) (sub : Byte) : encX op x sub &&& 0xF0FF = encX op 0 sub := by
  rw [show (0xF0FF : Word) = (15#4 ++ 0#4 ++ 255#8 : Word) from rfl, encX, BitVec.and_append,
    BitVec.and_append, nib_and_F, show (255#8 : Byte) = BitVec.allOnes 8 from rfl, BitVec.and_allOnes]
  simp [encX]

theorem cls : Statement .cls :=
  rfl

theorem ret : Statement .ret :=
  rfl

theorem sys (nnn : Addr) : Statement (.sys nnn) :=
  congrArg (fun w => some (w == (0x0000 : Word))) (ofA 0x0 nnn)

theorem jp (nnn : Addr) : Statement (.jp nnn) :=
  congrArg (fun w => some (w == (0x1000 : Word))) (ofA 0x1 nnn)

theorem call (nnn : Addr) : Statement (.call nnn) :=
  congrArg (fun w => some (w == (0x2000 : Word))) (ofA 0x2 nnn)

theorem seImm (x : Nib) (nn : Byte) : Statement (.seImm x nn) :=
  congrArg (fun w => some (w == (0x3000 : Word))) (ofXNN 0x3 x nn)

theorem sneImm (x : Nib) (nn : Byte) : Statement (.sneImm x nn) :=
  congrArg (fun w => some (w == (0x4000 : Word))) (ofXNN 0x4 x nn)

theorem seReg (x y : Nib) : Statement (.seReg x y) :=
  congrArg (fun w => some (w == (0x5000 : Word))) (ofXY 0x5 x y 0x0)

theorem ldImm (x : Nib) (nn : Byte) : Statement (.ldImm x nn) :=
  congrArg (fun w => some (w == (0x6000 : Word))) (ofXNN 0x6 x nn)

theorem addImm (x : Nib) (nn : Byte) : Statement (.addImm x nn) :=
  congrArg (fun w => some (w == (0x7000 : Word))) (ofXNN 0x7 x nn)

theorem ldReg (x y : Nib) : Statement (.ldReg x y) :=
  congrArg (fun w => some (w == (0x8000 : Word))) (ofXY 0x8 x y 0x0)

theorem orReg (x y : Nib) : Statement (.orReg x y) :=
  congrArg (fun w => some (w == (0x8001 : Word))) (ofXY 0x8 x y 0x1)

theorem andReg (x y : Nib) : Statement (.andReg x y) :=
  congrArg (fun w => some (w == (0x8002 : Word))) (ofXY 0x8 x y 0x2)

theorem xorReg (x y : Nib) : Statement (.xorReg x y) :=
  congrArg (fun w => some (w == (0x8003 : Word))) (ofXY 0x8 x y 0x3)

theorem addReg (x y : Nib) : Statement (.addReg x y) :=
  congrArg (fun w => some (w == (0x8004 : Word))) (ofXY 0x8 x y 0x4)

theorem sub (x y : Nib) : Statement (.sub x y) :=
  congrArg (fun w => some (w == (0x8005 : Word))) (ofXY 0x8 x y 0x5)

theorem shr (x y : Nib) : Statement (.shr x y) :=
  congrArg (fun w => some (w == (0x8006 : Word))) (ofXY 0x8 x y 0x6)

theorem subn (x y : Nib) : Statement (.subn x y) :=
  congrArg (fun w => some (w == (0x8007 : Word))) (ofXY 0x8 x y 0x7)

theorem shl (x y : Nib) : Statement (.shl x y) :=
  congrArg (fun w => some (w == (0x800E : Word))) (ofXY 0x8 x y 0xE)

theorem sneReg (x y : Nib) : Statement (.sneReg x y) :=
  congrArg (fun w => some (w == (0x9000 : Word))) (ofXY 0x9 x y 0x0)

theorem ldI (nnn : Addr) : Statement (.ldI nnn) :=
  congrArg (fun w => some (w == (0xA000 : Word))) (ofA 0xA nnn)

theorem jpV0 (nnn : Addr) : Statement (.jpV0 nnn) :=
  congrArg (fun w => some (w == (0xB000 : Word))) (ofA 0xB nnn)

theorem rnd (x : Nib) (nn : Byte) : Statement (.rnd x nn) :=
  congrArg (fun w => some (w == (0xC000 : Word))) (ofXNN 0xC x nn)

theorem drw (x y n : Nib) : Statement (.drw x y n) :=
  congrArg (fun w => some (w == (0xD000 : Word))) (ofXYN 0xD x y n)

theorem skp (x : Nib) : Statement (.skp x) :=
  congrArg (fun w => some (w == (0xE09E : Word))) (ofX 0xE x 0x9E)

theorem sknp (x : Nib) : Statement (.sknp x) :=
  congrArg (fun w => some (w == (0xE0A1 : Word))) (ofX 0xE x 0xA1)

theorem ldVxDt (x : Nib) : Statement (.ldVxDt x) :=
  congrArg (fun w => some (w == (0xF007 : Word))) (ofX 0xF x 0x07)

theorem ldVxK (x : Nib) : Statement (.ldVxK x) :=
  congrArg (fun w => some (w == (0xF00A : Word))) (ofX 0xF x 0x0A)

theorem ldDtVx (x : Nib) : Statement (.ldDtVx x) :=
  congrArg (fun w => some (w == (0xF015 : Word))) (ofX 0xF x 0x15)

theorem ldStVx (x : Nib) : Statement (.ldStVx x) :=
  congrArg (fun w => some (w == (0xF018 : Word))) (ofX 0xF x 0x18)

theorem addI (x : Nib) : Statement (.addI x) :=
  congrArg (fun w => some (w == (0xF01E : Word))) (ofX 0xF x 0x1E)

theorem ldF (x : Nib) : Statement (.ldF x) :=
  congrArg (fun w => some (w == (0xF029 : Word))) (ofX 0xF x 0x29)

theorem ldB (x : Nib) : Statement (.ldB x) :=
  congrArg (fun w => some (w == (0xF033 : Word))) (ofX 0xF x 0x33)

theorem ldMemVx (x : Nib) : Statement (.ldMemVx x) :=
  congrArg (fun w => some (w == (0xF055 : Word))) (ofX 0xF x 0x55)

theorem ldVxMem (x : Nib) : Statement (.ldVxMem x) :=
  congrArg (fun w => some (w == (0xF065 : Word))) (ofX 0xF x 0x65)

end Sys2Proof.Laws.MatchesOwnRow
end

