-- ==== Sys2Proof/Tests/Slice0.lean ====
section
/-! SUPPORT. The model's own tests. Expected values come from 95_test_vectors.md (TV-...), from the
encodings of 30_encoding.md R105, or by hand from the rule a test names. Each test is one step. The last
part shows, for every statement with hypotheses, a state and operands that meet them. -/

namespace Sys2Proof.Tests

open Sys2Proof Sys2Proof.Machine

/-! ## Helpers -/

/-- What a result shows of its next state; none on a stop. -/
def look {α : Type} (r : Result) (g : State → α) : Option α :=
  match r with
  | .next t => some (g t)
  | .fault _ => none
  | .refused _ => none

/-- The reset state with some registers set. -/
def regs (l : List (Nib × Byte)) : State := l.foldl (fun s p => s.setV p.1 p.2) State.reset

/-- One step of a state that fetches this word next. -/
def run (s : State) (w : Nat) : Result := step (s.withFetchWord 16 w)

/-- One step of a state whose next event is this one. -/
def send (s : State) (e : Event) : Result := step (s.setPending [e])

/-- The reset state with bytes written at an address. -/
def bytes (a : Nat) (l : List Byte) (s : State) : State := s.setMem (s.mem.writeList a l)

/-- A stack of this many equal entries. -/
def deep (n : Nat) : State := State.reset.setStack (List.replicate n 0x0202)

/-- The reset state with other parameters. -/
def params (p : Params) : State := { State.reset with params := p }

/-! ## Well-formedness, with an ill-formed term for each check -/

theorem test_wf_sys : (Instr.sys 0x123).WellFormed = true := by decide
theorem test_illformed_sys_cls : (Instr.sys 0x0E0).WellFormed = false := by decide
theorem test_illformed_sys_ret : (Instr.sys 0x0EE).WellFormed = false := by decide

/-! ## Decoding: each constructor's word, nibble by nibble from 30_encoding.md R105 -/

theorem test_decode_cls : decodeWord 0b0000000011100000 = .ok .cls := by decide
theorem test_decode_ret : decodeWord 0b0000000011101110 = .ok .ret := by decide
theorem test_decode_sys : decodeWord 0b0000000100100011 = .ok (.sys 0x123) := by decide
theorem test_decode_jp : decodeWord 0b0001001000101000 = .ok (.jp 0x228) := by decide
theorem test_decode_call : decodeWord 0b0010001100000000 = .ok (.call 0x300) := by decide
theorem test_decode_seImm : decodeWord 0b0011001101000010 = .ok (.seImm 0x3 0x42) := by decide
theorem test_decode_sneImm : decodeWord 0b0100001101000010 = .ok (.sneImm 0x3 0x42) := by decide
theorem test_decode_seReg : decodeWord 0b0101000100100000 = .ok (.seReg 0x1 0x2) := by decide
theorem test_decode_ldImm : decodeWord 0b0110101000101111 = .ok (.ldImm 0xA 0x2F) := by decide
theorem test_decode_addImm : decodeWord 0b0111000100100000 = .ok (.addImm 0x1 0x20) := by decide
theorem test_decode_ldReg : decodeWord 0b1000000100100000 = .ok (.ldReg 0x1 0x2) := by decide
theorem test_decode_orReg : decodeWord 0b1000000100100001 = .ok (.orReg 0x1 0x2) := by decide
theorem test_decode_andReg : decodeWord 0b1000000100100010 = .ok (.andReg 0x1 0x2) := by decide
theorem test_decode_xorReg : decodeWord 0b1000000100100011 = .ok (.xorReg 0x1 0x2) := by decide
theorem test_decode_addReg : decodeWord 0b1000000100100100 = .ok (.addReg 0x1 0x2) := by decide
theorem test_decode_sub : decodeWord 0b1000000100100101 = .ok (.sub 0x1 0x2) := by decide
theorem test_decode_shr : decodeWord 0b1000000100100110 = .ok (.shr 0x1 0x2) := by decide
theorem test_decode_subn : decodeWord 0b1000000100100111 = .ok (.subn 0x1 0x2) := by decide
theorem test_decode_shl : decodeWord 0b1000000100101110 = .ok (.shl 0x1 0x2) := by decide
theorem test_decode_sneReg : decodeWord 0b1001000100100000 = .ok (.sneReg 0x1 0x2) := by decide
theorem test_decode_ldI : decodeWord 0b1010001011110000 = .ok (.ldI 0x2F0) := by decide
theorem test_decode_jpV0 : decodeWord 0b1011001100000000 = .ok (.jpV0 0x300) := by decide
theorem test_decode_rnd : decodeWord 0b1100001100001111 = .ok (.rnd 0x3 0x0F) := by decide
theorem test_decode_drw : decodeWord 0b1101000000010101 = .ok (.drw 0x0 0x1 0x5) := by decide
theorem test_decode_skp : decodeWord 0b1110000110011110 = .ok (.skp 0x1) := by decide
theorem test_decode_sknp : decodeWord 0b1110000110100001 = .ok (.sknp 0x1) := by decide
theorem test_decode_ldVxDt : decodeWord 0b1111001100000111 = .ok (.ldVxDt 0x3) := by decide
theorem test_decode_ldVxK : decodeWord 0b1111001000001010 = .ok (.ldVxK 0x2) := by decide
theorem test_decode_ldDtVx : decodeWord 0b1111001100010101 = .ok (.ldDtVx 0x3) := by decide
theorem test_decode_ldStVx : decodeWord 0b1111001100011000 = .ok (.ldStVx 0x3) := by decide
theorem test_decode_addI : decodeWord 0b1111010000011110 = .ok (.addI 0x4) := by decide
theorem test_decode_ldF : decodeWord 0b1111001000101001 = .ok (.ldF 0x2) := by decide
theorem test_decode_ldB : decodeWord 0b1111010100110011 = .ok (.ldB 0x5) := by decide
theorem test_decode_ldMemVx : decodeWord 0b1111001101010101 = .ok (.ldMemVx 0x3) := by decide
theorem test_decode_ldVxMem : decodeWord 0b1111001101100101 = .ok (.ldVxMem 0x3) := by decide

/-- TV-S10, TV-E6: words no entry matches. -/
theorem test_decode_unmatched :
    [0x5121, 0x800F, 0x9AB1, 0xE000, 0xF000, 0xFFFF].all
      (fun w => decodeWord w == .error (.noMatch w)) = true := by decide

/-- Big-endian bytes, and what follows the instruction (20_memory.md R72). -/
theorem test_decode_bytes : decode [0xA1, 0x23, 0x60] = .ok (.ldI 0x123, [0x60]) := by decide

/-- One byte is no instruction (30_encoding.md R100). -/
theorem test_decode_short : decode [0xA1] = .error .truncated := by decide

/-- The table's numbering of bits (log 14). -/
theorem test_table_word : decodeTableWord 16 0xD015 = some (.drw 0x0 0x1 0x5) := by decide

/-- Only the two bytes at `PC` change in a reset state (log 2, log 14). -/
theorem test_with_fetch_word :
    State.reset.withFetchWord 16 0xD015 = bytes 0x200 [0xD0, 0x15] State.reset := by decide

/-! ## Control flow -/

/-- TV-F1 -/
theorem test_sys : look (run State.reset 0x0123) (fun t => (t.pc, t.v, t.exec)) =
    some (0x202, State.reset.v, .running) := by decide
/-- TV-F7 -/
theorem test_ret : look (run ((State.reset.setStack [0x0202]).setPc 0x300) 0x00EE)
    (fun t => (t.pc, t.stack)) = some (0x202, []) := by decide
/-- TV-F8 -/
theorem test_ret_empty : look (run State.reset 0x00EE) (fun t => (t.exec, t.fault, t.pc)) =
    some (.faulted, some ⟨.stackUnderflow, 0x200, some 0x00EE, none⟩, 0x202) := by decide
/-- TV-F3 -/
theorem test_jp : look (run State.reset 0x1228) (fun t => t.pc) = some 0x228 := by decide
/-- TV-F5 -/
theorem test_call : look (run State.reset 0x2300) (fun t => (t.stack, t.pc)) =
    some ([0x202], 0x300) := by decide
/-- TV-F6 -/
theorem test_call_full : look (run (deep 16) 0x2300) (fun t => (t.fault, t.stack.length, t.pc)) =
    some (some ⟨.stackOverflow, 0x200, some 0x2300, none⟩, 16, 0x202) := by decide
/-- TV-F11 -/
theorem test_seImm_taken : look (run (regs [(3, 0x42)]) 0x3342) (fun t => t.pc) = some 0x204 := by decide
/-- TV-F11 -/
theorem test_seImm_not : look (run (regs [(3, 0x42)]) 0x3343) (fun t => t.pc) = some 0x202 := by decide
/-- TV-F12 -/
theorem test_sneImm_not : look (run (regs [(3, 0x42)]) 0x4342) (fun t => t.pc) = some 0x202 := by decide
/-- TV-F12 -/
theorem test_sneImm_taken : look (run (regs [(3, 0x42)]) 0x4300) (fun t => t.pc) = some 0x204 := by decide
/-- TV-F13 -/
theorem test_seReg : look (run (regs [(1, 7), (2, 7)]) 0x5120) (fun t => t.pc) = some 0x204 := by decide
/-- TV-F13 -/
theorem test_sneReg : look (run (regs [(1, 7), (2, 7)]) 0x9120) (fun t => t.pc) = some 0x202 := by decide
/-- 41_flow.md R178's example. -/
theorem test_sneReg_taken : look (run (regs [(1, 7), (2, 8)]) 0x9120) (fun t => t.pc) = some 0x204 := by
  decide
/-- TV-F16 -/
theorem test_jpV0_top : look (run (regs [(0, 0xFF)]) 0xBFFF) (fun t => t.pc) = some 0x10FE := by decide
/-- TV-F17 -/
theorem test_jpV0_not_vx : look (run (regs [(5, 0x99)]) 0xB500) (fun t => t.pc) = some 0x500 := by decide

/-! ## Registers and arithmetic -/

/-- TV-A1 -/
theorem test_ldImm : look (run State.reset 0x6A2F) (fun t => t.getV 0xA) = some 0x2F := by decide
/-- TV-A4 -/
theorem test_addImm_wraps : look (run (regs [(1, 0xFF), (15, 0x5A)]) 0x7101)
    (fun t => (t.getV 1, t.getV 15)) = some (0x00, 0x5A) := by decide
/-- TV-A5 -/
theorem test_addImm_vf : look (run (regs [(15, 0x10)]) 0x7F01) (fun t => t.getV 15) = some 0x11 := by
  decide
/-- TV-A6 -/
theorem test_ldReg : look (run (regs [(2, 0x55)]) 0x8120) (fun t => t.getV 1) = some 0x55 := by decide
/-- TV-A7 -/
theorem test_orReg : look (run (regs [(1, 0x0F), (2, 0xF0), (15, 0x33)]) 0x8121)
    (fun t => (t.getV 1, t.getV 15)) = some (0xFF, 0x33) := by decide
/-- TV-A8 -/
theorem test_andReg : look (run (regs [(1, 0x3C), (2, 0x0F)]) 0x8122) (fun t => t.getV 1) =
    some 0x0C := by decide
/-- TV-A9 -/
theorem test_xorReg : look (run (regs [(1, 0xFF), (2, 0x0F)]) 0x8123) (fun t => t.getV 1) =
    some 0xF0 := by decide
/-- TV-S1 -/
theorem test_addReg_carry : look (run (regs [(1, 0xFF), (2, 0x01)]) 0x8124)
    (fun t => (t.getV 1, t.getV 15)) = some (0x00, 1) := by decide
/-- TV-A13 -/
theorem test_addReg_vf : look (run (regs [(15, 0xFF), (1, 0x01)]) 0x8F14)
    (fun t => (t.getV 1, t.getV 15)) = some (0x01, 1) := by decide
/-- TV-A15 -/
theorem test_sub_borrow : look (run (regs [(1, 0x03), (2, 0x05)]) 0x8125)
    (fun t => (t.getV 1, t.getV 15)) = some (0xFE, 0) := by decide
/-- TV-S2 -/
theorem test_sub_equal : look (run (regs [(1, 0x05), (2, 0x05)]) 0x8125)
    (fun t => (t.getV 1, t.getV 15)) = some (0x00, 1) := by decide
/-- TV-A18 -/
theorem test_subn_borrow : look (run (regs [(1, 0x03), (2, 0x01)]) 0x8127)
    (fun t => (t.getV 1, t.getV 15)) = some (0xFE, 0) := by decide
/-- TV-A20 -/
theorem test_subn_equal : look (run (regs [(1, 0x09), (2, 0x09)]) 0x8127)
    (fun t => (t.getV 1, t.getV 15)) = some (0x00, 1) := by decide
/-- TV-A21 -/
theorem test_shr : look (run (regs [(1, 0xAA), (2, 0x05)]) 0x8126)
    (fun t => (t.getV 1, t.getV 2, t.getV 15)) = some (0x02, 0x02, 1) := by decide
/-- TV-A25 -/
theorem test_shr_vf : look (run (regs [(2, 0x02)]) 0x8F26)
    (fun t => (t.getV 2, t.getV 15)) = some (0x01, 0) := by decide
/-- TV-A26 -/
theorem test_shl : look (run (regs [(2, 0x81)]) 0x812E)
    (fun t => (t.getV 1, t.getV 2, t.getV 15)) = some (0x02, 0x02, 1) := by decide
/-- TV-A27 -/
theorem test_shl_no_carry : look (run (regs [(2, 0x40)]) 0x812E)
    (fun t => (t.getV 1, t.getV 2, t.getV 15)) = some (0x80, 0x80, 0) := by decide
/-- TV-A30: a mask of 0 gives 0 whatever the draw. -/
theorem test_rnd_zero_mask :
    look (exec (.rnd 0x3 0x00) (regs [(3, 0x77)])) (fun t => t.getV 3) = some 0x00 := by
  have h : ∀ b : Byte, b &&& 0x00#8 = 0x00#8 := by decide
  exact congrArg some (h _)

/-! ## Index and memory -/

/-- TV-M1 -/
theorem test_ldI : look (run State.reset 0xA2F0) (fun t => t.i) = some 0x2F0 := by decide
/-- TV-M3 -/
theorem test_addI_past_memory : look (run ((regs [(1, 1)]).setI 0x0FFF) 0xF11E)
    (fun t => (t.i, t.exec)) = some (0x1000, .running) := by decide
/-- TV-M4 -/
theorem test_addI_wraps : look (run ((regs [(1, 1)]).setI 0xFFFF) 0xF11E) (fun t => t.i) =
    some 0x0000 := by decide
/-- TV-M5 -/
theorem test_ldF : look (run (regs [(2, 0x0B)]) 0xF229) (fun t => t.i) = some 0x037 := by decide
/-- TV-M6 -/
theorem test_ldF_low_nibble : look (run (regs [(2, 0x1A)]) 0xF229) (fun t => t.i) = some 0x032 := by
  decide
/-- TV-M8 -/
theorem test_ldB : look (run ((regs [(5, 0x9C)]).setI 0x300) 0xF533)
    (fun t => ([t.readByte 0x300, t.readByte 0x301, t.readByte 0x302], t.i)) =
    some ([1, 5, 6], 0x300) := by decide
/-- TV-M12 -/
theorem test_ldB_bounds : look (run ((regs [(5, 7)]).setI 0xFFE) 0xF533)
    (fun t => (t.fault, t.readByte 0xFFE, t.pc)) =
    some (some ⟨.boundsData, 0x200, some 0xF533, some 0x1000⟩, 0, 0x202) := by decide
/-- TV-S5 -/
theorem test_ldMemVx : look (run ((regs [(0, 1), (1, 2), (2, 3), (3, 4), (4, 0xAA)]).setI 0x400) 0xF355)
    (fun t => ([t.readByte 0x400, t.readByte 0x403, t.readByte 0x404], t.i)) =
    some ([1, 4, 0], 0x404) := by decide
/-- TV-M17 -/
theorem test_ldMemVx_bounds : look (run ((regs [(0, 9)]).setI 0xFF1) 0xFF55)
    (fun t => (t.fault, t.readByte 0xFF1, t.i)) =
    some (some ⟨.boundsData, 0x200, some 0xFF55, some 0x1000⟩, 0, 0xFF1) := by decide
/-- TV-S6 -/
theorem test_ldVxMem :
    look (run (bytes 0x400 [9, 8, 7, 6, 5] ((regs [(4, 0xAA)]).setI 0x400)) 0xF365)
      (fun t => ([t.getV 0, t.getV 3, t.getV 4], t.i)) = some ([9, 6, 0xAA], 0x404) := by decide
/-- 43_index_memory.md R236: `I + X >= 4096` loads nothing. -/
theorem test_ldVxMem_bounds : look (run ((regs [(0, 9)]).setI 0xFFF) 0xF165)
    (fun t => (t.fault, t.getV 0, t.i)) =
    some (some ⟨.boundsData, 0x200, some 0xF165, some 0x1000⟩, 9, 0xFFF) := by decide

/-! ## Display -/

/-- TV-D1 -/
theorem test_cls : look (run (State.reset.setFb (FrameBuf.flip FrameBuf.clear 5 7)) 0x00E0)
    (fun t => (t.fb, t.dispEv)) = some (FrameBuf.clear, 1) := by decide
/-- TV-D15 -/
theorem test_drw_collision :
    look (run (bytes 0x300 [0xC0] ((State.reset.setFb (FrameBuf.flip FrameBuf.clear 1 0)).setI 0x300)) 0xD011)
      (fun t => (t.fbAt 0 0, t.fbAt 1 0, t.getV 15, t.dispEv)) = some (true, false, 1, 1) := by decide
/-- TV-D7 -/
theorem test_drw_wrap :
    look (run (bytes 0x300 [0xFF] (((params { defaultParams with drawEdge := .wrap }).setV 0 60).setI 0x300))
        0xD011)
      (fun t => ((List.range 64).filter (fun x => t.fbAt x 0), t.getV 15)) =
    some ([0, 1, 2, 3, 60, 61, 62, 63], 0) := by decide

/-! ## Timers and keys -/

/-- TV-T2 -/
theorem test_ldVxDt : look (run (State.reset.setDt 0x1E) 0xF307) (fun t => t.getV 3) = some 0x1E := by
  decide
/-- TV-T3 -/
theorem test_ldDtVx : look (run (regs [(3, 0x3C)]) 0xF315) (fun t => (t.dt, t.tacc)) =
    some (60, 0) := by decide
/-- TV-T4 -/
theorem test_ldStVx : look (run (regs [(3, 0x05)]) 0xF318) (fun t => (t.st, t.soundOn)) =
    some (5, true) := by decide
/-- TV-K1 -/
theorem test_skp : look (run ((regs [(1, 4)]).setKey 4 true) 0xE19E) (fun t => t.pc) = some 0x204 := by
  decide
/-- TV-K3 -/
theorem test_skp_no_such_key : look (run ((regs [(1, 0x14)]).setKey 4 true) 0xE19E) (fun t => t.pc) =
    some 0x202 := by decide
/-- TV-K2 -/
theorem test_sknp : look (run (regs [(1, 4)]) 0xE1A1) (fun t => t.pc) = some 0x204 := by decide
/-- TV-K3 -/
theorem test_sknp_no_such_key : look (run ((regs [(1, 0x14)]).setKey 4 true) 0xE1A1) (fun t => t.pc) =
    some 0x204 := by decide
/-- TV-K4 -/
theorem test_ldVxK : look (run State.reset 0xF20A) (fun t => (t.wait, t.pc, t.getV 2)) =
    some (some 2, 0x202, 0) := by decide

/-! ## The loop -/

/-- TV-E2: the last word of memory is fetched. -/
theorem test_fetch_last : look (step (bytes 0xFFE [0x60, 0x07] (State.reset.setPc 0xFFE)))
    (fun t => (t.getV 0, t.pc)) = some (7, 0x1000) := by decide
/-- TV-E3 -/
theorem test_fetch_bounds : look (step (State.reset.setPc 0xFFF)) (fun t => (t.fault, t.pc)) =
    some (some ⟨.boundsFetch, 0xFFF, none, some 0x1000⟩, 0xFFF) := by decide
/-- TV-E4 -/
theorem test_fetch_odd : look (step (bytes 0x201 [0x6A, 0x05] (State.reset.setPc 0x201)))
    (fun t => (t.getV 0xA, t.pc)) = some (5, 0x203) := by decide
/-- TV-S10 -/
theorem test_decode_fault : look (run State.reset 0x5121) (fun t => (t.exec, t.fault, t.pc)) =
    some (.faulted, some ⟨.decode, 0x200, some 0x5121, none⟩, 0x202) := by decide
/-- TV-E5 -/
theorem test_decode_skip :
    look (run (params { defaultParams with decodeFault := .skip }) 0x5121)
      (fun t => (t.exec, t.diag, t.pc)) =
    some (.running, [⟨.decodeSkip, 0x200, 0x5121⟩], 0x202) := by decide
/-- TV-F9 -/
theorem test_ret_empty_reported :
    look (run (params { defaultParams with retEmpty := .ignoreReported }) 0x00EE)
      (fun t => (t.exec, t.diag, t.pc)) =
    some (.running, [⟨.retEmpty, 0x200, 0x00EE⟩], 0x202) := by decide
/-- TV-E7 -/
theorem test_cycle_faulted :
    step (State.reset.setExec .faulted) = .fault .cycleWhenFaulted := by rfl
/-- TV-E8 -/
theorem test_cycle_waiting : step (State.reset.setWait (some 3)) = .fault .cycleInKeyWait := by rfl

/-! ## Events -/

/-- TV-T1 -/
theorem test_time_100ms : look (send (State.reset.setDt 10) (.time 100000000))
    (fun t => (t.dt, t.tacc)) = some (4, 0) := by decide
/-- TV-T5 -/
theorem test_time_one_tick : look (send (State.reset.setSt 1) (.time 16666667))
    (fun t => (t.st, t.tacc, t.soundOn)) = some (0, 20, false) := by decide
/-- TV-T9 -/
theorem test_time_frozen : look (send ((State.reset.setDt 5).setExec .faulted) (.time 1000000000))
    (fun t => (t.dt, t.tacc)) = some (5, 0) := by decide
/-- TV-T10 -/
theorem test_time_in_wait : look (send ((State.reset.setDt 60).setWait (some 2)) (.time 500000000))
    (fun t => (t.dt, t.wait)) = some (30, some 2) := by decide
/-- TV-K5 -/
theorem test_key_ends_wait : look (send (State.reset.setWait (some 2)) (.key 7 true))
    (fun t => (t.key 7, t.last, t.getV 2, t.wait)) = some (true, some 7, 7, none) := by decide
/-- TV-K6 -/
theorem test_key_held : look (send ((State.reset.setWait (some 2)).setKey 7 true) (.key 7 true))
    (fun t => (t.last, t.getV 2, t.wait)) = some (some 7, 0, some 2) := by decide
/-- TV-K9 -/
theorem test_key_release_one :
    look (send (((State.reset.setKey 3 true).setKey 5 true).setLast (some 5)) (.key 5 false))
      (fun t => (t.last, t.key 5)) = some (some 5, false) := by decide
/-- TV-K10 -/
theorem test_key_release_last :
    look (send ((State.reset.setKey 3 true).setLast (some 5)) (.key 3 false)) (fun t => t.last) =
    some none := by decide
/-- TV-K8 -/
theorem test_stop_in_wait : look (send (State.reset.setWait (some 2)) .stop)
    (fun t => (t.exec, t.wait, t.getV 2)) = some (.halted, none, 0) := by decide
/-- TV-S7 -/
theorem test_reset : look (send (bytes 0x300 [1] ((regs [(3, 9)]).setExec .faulted)) .reset) id =
    some State.reset := by decide
/-- TV-S8, with the glyph of 0 (TV-M7) -/
theorem test_load : look (send (regs [(3, 9)]) (.load [0x12, 0x34, 0x56]))
    (fun t => ([t.readByte 0x200, t.readByte 0x201, t.readByte 0x202, t.readByte 0x203, t.readByte 0,
      t.readByte 1], t.pc, t.getV 3)) =
    some ([0x12, 0x34, 0x56, 0, 0xF0, 0x90], 0x200, 0) := by decide
/-- TV-S11 -/
theorem test_load_error : send State.reset (.load []) = .refused .loadErrorEmpty := by rfl

/-! ## Witnesses: the hypotheses of each statement are met, at the edges of their ranges -/

/-- FirstMatchWins, first entry, an entry after two that do not match, and the last entry. -/
theorem witness_first_match :
    (dispatchTable = [] ++ dispatchTable.head (by decide) :: dispatchTable.tail ∧
      (0x00E0 : Word) &&& (dispatchTable.head (by decide)).mask = (dispatchTable.head (by decide)).bits) ∧
    (0x0123 : Word) &&& dispatchTable[2].mask = dispatchTable[2].bits ∧
    (0x0123 : Word) &&& dispatchTable[0].mask ≠ dispatchTable[0].bits ∧
    (0x0123 : Word) &&& dispatchTable[1].mask ≠ dispatchTable[1].bits ∧
    (0xFF65 : Word) &&& dispatchTable[34].mask = dispatchTable[34].bits ∧
    (dispatchTable.take 34).all (fun e => (0xFF65 : Word) &&& e.mask != e.bits) = true :=
  ⟨⟨rfl, by decide⟩, by decide⟩

/-- FirstMatchWins, no entry. -/
theorem witness_no_match : dispatchTable.all (fun e => (0x5121 : Word) &&& e.mask != e.bits) = true := by
  decide

/-- UnmatchedAndDoublyMatchedWords, both words that match twice. -/
theorem witness_double_match :
    ((0x00E0 : Word) &&& dispatchTable[0].mask = dispatchTable[0].bits ∧
      (0x00E0 : Word) &&& dispatchTable[2].mask = dispatchTable[2].bits) ∧
    ((0x00EE : Word) &&& dispatchTable[1].mask = dispatchTable[1].bits ∧
      (0x00EE : Word) &&& dispatchTable[2].mask = dispatchTable[2].bits) := by decide

/-- EncodeThenDecode, at both ends of the one constructor that has ill-formed terms. -/
theorem witness_encode :
    (Instr.sys 0x000).WellFormed = true ∧ (Instr.sys 0xFFF).WellFormed = true ∧
    (Instr.sys 0x0E1).WellFormed = true := by decide

/-- DecodeThenEncode. -/
theorem witness_decode : decodeWord 0x0000 = .ok (.sys 0) ∧ decodeWord 0xFF65 = .ok (.ldVxMem 0xF) := by
  decide

/-- The state of TV-E2: the last word of memory is next. -/
def lastWord : State := bytes 0xFFE [0x60, 0x07] (State.reset.setPc 0xFFE)

/-- StepRunsDecodedInstruction and CycleFetchesAdvancesExecutes, at the last word of memory. -/
theorem witness_cycle :
    lastWord.exec = .running ∧ lastWord.wait = none ∧ lastWord.nextEvent = .cycle ∧
    lastWord.pc.toNat + 1 ≤ 0xFFF ∧
    decodeWord (lastWord.readByte lastWord.pc.toNat ++ lastWord.readByte (lastWord.pc.toNat + 1)) =
      .ok (.ldImm 0 7) ∧
    (0x6007 : Word) = ((lastWord.readByte lastWord.pc.toNat).zeroExtend 16 <<< 8) |||
      (lastWord.readByte (lastWord.pc.toNat + 1)).zeroExtend 16 := by decide

/-- StepRunsDecodedInstruction, the other two clauses. -/
theorem witness_events :
    (State.reset.setPending [.stop, .reset]).pending = .stop :: [.reset] ∧ State.reset.pending = [] := by
  decide

/-- The reset state with a word no entry matches at `PC`, under a policy. -/
def unmatched (d : DecodePolicy) : State :=
  bytes 0x200 [0x51, 0x21] (params { defaultParams with decodeFault := d })

/-- UnmatchedWordFollowsPolicy, and the second clause of CycleFetchesAdvancesExecutes. -/
theorem witness_unmatched (d : DecodePolicy) :
    (unmatched d).exec = .running ∧ (unmatched d).wait = none ∧ (unmatched d).pc.toNat + 1 ≤ 0xFFF ∧
    (0x5121 : Word) =
      (unmatched d).readByte (unmatched d).pc.toNat ++ (unmatched d).readByte ((unmatched d).pc.toNat + 1) ∧
    (∀ i, decodeWord 0x5121 ≠ .ok i) ∧ (unmatched d).params.decodeFault = d := by
  refine ⟨rfl, rfl, by cases d <;> decide, by cases d <;> decide, fun i h => ?_, rfl⟩
  rw [show decodeWord 0x5121 = .error (.noMatch 0x5121) by decide] at h
  cases h

/-- FetchOutOfBoundsFaults, at 0xFFF, at 0x1000 and at the largest `PC`. -/
theorem witness_fetch_bounds :
    ∀ a ∈ [0xFFF#16, 0x1000#16, 0x10FE#16], (State.reset.setPc a).exec = .running ∧
      (State.reset.setPc a).wait = none ∧ (State.reset.setPc a).pc.toNat + 1 > 0xFFF := by
  simp [State.setPc, State.reset]

/-- CycleOnlyWhenEnabled, ResetGivesResetValues: a Reset from `Faulted` and from `Halted` re-enters
`Running`. -/
theorem witness_reset_restarts :
    ∀ e ∈ [RunState.faulted, RunState.halted],
      (State.reset.setExec e).exec ≠ .running ∧
      look (deliver .reset (State.reset.setExec e)) (fun t => t.exec) = some .running := by decide

/-- CycleOnlyWhenEnabled, DisabledCycleStopsByName: the states where no Cycle runs. -/
theorem witness_disabled :
    (State.reset.setExec .faulted).exec = .faulted ∧ (State.reset.setExec .halted).exec = .halted ∧
    (State.reset.setWait (some 15)).exec = .running ∧ (State.reset.setWait (some 15)).wait ≠ none ∧
    (State.reset.setWait (some 15)).key 0 = false := by decide

/-- RetPopsProgramCounter, its four cases. -/
theorem witness_ret :
    (deep 1).stack = [] ++ [0x0202] ∧
    (State.reset.setStack [0x0300, 0x1000]).stack = [0x0300] ++ [0x1000] ∧
    (State.reset.stack = [] ∧ State.reset.params.retEmpty = .fault) ∧
    (params { defaultParams with retEmpty := .ignoreReported }).stack = [] ∧
    (params { defaultParams with retEmpty := .ignoreReported }).params.retEmpty = .ignoreReported := by
  decide

/-- CallPushesAndJumps, on either side of a full stack. -/
theorem witness_call : (deep 15).stack.length < 16 ∧ 16 ≤ (deep 16).stack.length := by decide

/-- DecimalDigitsStored, RegistersStoredToMemory, RegistersLoadedFromMemory: the last range that fits and
the first that does not. -/
theorem witness_ranges :
    ((State.reset.setI 0xFFD).mem.wf ∧ (State.reset.setI 0xFFD).indexAddr + 2 < 4096 ∧
      (State.reset.setI 0xFFE).indexAddr + 2 ≥ 4096) ∧
    ((State.reset.setI 0xFF0).mem.wf ∧ (State.reset.setI 0xFF0).indexAddr + (0xF : Nib).toNat < 4096 ∧
      (State.reset.setI 0xFF1).indexAddr + (0xF : Nib).toNat ≥ 4096) ∧
    (State.reset.setI 0xFFF).indexAddr + (0x0 : Nib).toNat < 4096 ∧
    (State.reset.setI 0x1000).indexAddr + (0x0 : Nib).toNat ≥ 4096 := by decide

/-- The state of TV-D15: a sprite of two pixels, the second on a set cell. -/
def overlap : State :=
  bytes 0x300 [0xC0] (((State.reset.setFb (FrameBuf.flip FrameBuf.clear 1 0)).setV 1 0).setI 0x300)

/-- DrawXorsSprite: no rows at any address, the last sprite in memory, the first out of bounds, and both
values of the collision flag. -/
theorem witness_draw :
    ((0 : Nib) = 0 ∨ (State.reset.setI 0xFFFF).indexAddr + (0 : Nib).toNat ≤ 4096) ∧
    ((15 : Nib) = 0 ∨ (State.reset.setI 0xFF1).indexAddr + (15 : Nib).toNat ≤ 4096) ∧
    ((15 : Nib) ≠ 0 ∧ (State.reset.setI 0xFF2).indexAddr + (15 : Nib).toNat > 4096) ∧
    overlap.Collides 0 0 1 ∧ ¬ State.reset.Collides 0 0 1 := by
  refine ⟨.inl rfl, .inr (by decide), by decide, ⟨1, by decide, 0, by decide, by decide, by decide⟩, ?_⟩
  rintro ⟨cx, _, cy, _, _, h⟩
  have : State.reset.fbAt cx cy = false := by
    simp only [State.fbAt, FrameBuf.get, State.reset]
    split <;> simp
  simp [this] at h

/-- DrawingTwiceRestores: the second draw is at the same coordinates. -/
theorem witness_draw_twice :
    ∃ t, exec (.drw 0 1 1) overlap = .next t ∧ overlap.indexAddr + (1 : Nib).toNat ≤ 4096 ∧
      (t.getV 0).toNat % 64 = (overlap.getV 0).toNat % 64 ∧
      (t.getV 1).toNat % 32 = (overlap.getV 1).toNat % 32 ∧
      overlap.fbAt 0 0 = false ∧ t.fbAt 0 0 = true :=
  ⟨_, rfl, by decide, by decide, by decide, by decide, by decide⟩

/-- DrawingTwiceRestores, a draw that changes nothing. -/
theorem witness_draw_nothing :
    ∃ t, exec (.drw 0 1 0) State.reset = .next t ∧ t.fb = State.reset.fb := ⟨_, rfl, by decide⟩

/-- KeyWaitBegins: a key already held. -/
theorem witness_held : (State.reset.setKey 15 true).key 15 = true := by decide

/-- KeyEventUpdatesLatchAndEndsWait: each clause, the waiting register at both ends. -/
theorem witness_key :
    (∀ x ∈ [0#4, 15#4], (State.reset.setWait (some x)).wait = some x ∧
      (State.reset.setWait (some x)).key 7 = false) ∧
    look (deliver (.key 3 false) (State.reset.setKey 3 true)) (fun t => t.keys) =
      some State.reset.keys ∧
    look (deliver (.key 3 false) ((State.reset.setKey 3 true).setKey 5 true)) (fun t => t.key 5) =
      some true ∧
    ¬((true = true) ∧ (State.reset.setKey 3 true).key 3 = false) := by decide

/-- StopHaltsAndCancelsWait. -/
theorem witness_stop :
    (State.reset.setWait (some 2)).exec = .running ∧ (State.reset.setExec .faulted).exec ≠ .running ∧
    State.reset.exec ≠ .halted ∧ look (deliver .stop State.reset) (fun t => t.exec) = some .halted := by
  decide

/-- LoadWritesFontAndImage: the shortest and the longest image, and the highest font that fits. -/
theorem witness_load :
    (1 ≤ ([0x12] : List Byte).length ∧ ([0x12] : List Byte).length ≤ 3584) ∧
    (1 ≤ (List.replicate 3584 (0x12 : Byte)).length ∧
      (List.replicate 3584 (0x12 : Byte)).length ≤ 3584) ∧
    ({ defaultParams with fontBase := 0x1B0 } : Params).FontFits := by
  have h : (List.replicate 3584 (0x12 : Byte)).length = 3584 := List.length_replicate
  exact ⟨by decide, ⟨by omega, h.le⟩, by decide⟩

/-- LoadErrorsAreRefused: the empty image, one byte too many, and the lowest font that does not fit. -/
theorem witness_load_errors :
    ([] : List Byte).length = 0 ∧ (List.replicate 3585 (0x12 : Byte)).length > 3584 ∧
    (params { defaultParams with fontBase := 0x1B1 }).params.fontPreload = true ∧
    ¬ (params { defaultParams with fontBase := 0x1B1 }).params.FontFits := by
  have h : (List.replicate 3585 (0x12 : Byte)).length = 3585 := List.length_replicate
  exact ⟨rfl, by omega, rfl, by decide⟩

/-- TimeDecrementsTimers and TimeSplitsWithoutDrift: the largest remainder, and TV-T6's two events. -/
theorem witness_time :
    State.reset.exec = .running ∧ (State.reset.setExec .halted).exec ≠ .running ∧
    (State.reset.setTimers 999999999 0 0).tacc < 1000000000 ∧
    (State.reset.setPending [.time 16666666, .time 1, .cycle]).pending =
      [16666666, 1].map Event.time ++ [.cycle] := by decide

/-- InstructionFaultsArePrecise, OnlyCheckedInstructionsFault: instructions that fault. -/
theorem witness_faults :
    State.reset.exec = .running ∧
    look (exec .ret State.reset) (fun t => t.exec) = some .faulted ∧
    look (exec (.call 0x300) (deep 16)) (fun t => t.exec) = some .faulted ∧
    look (exec (.ldB 5) (State.reset.setI 0xFFE)) (fun t => t.exec) = some .faulted ∧
    look (deliver .cycle (State.reset.setPc 0xFFF)) (fun t => t.exec) = some .faulted := by decide

/-- FaultStaysUntilReset: a faulted machine still takes time and keys. -/
theorem witness_faulted :
    (State.reset.raise .decode 0x200 (some 0x5121) none).exec = .faulted ∧
    look (deliver (.key 2 true) (State.reset.raise .decode 0x200 (some 0x5121) none))
      (fun t => (t.key 2, t.exec)) = some (true, .faulted) := by decide

/-- A state that meets the invariant at its edges: a full stack, the largest `PC`, remainder and return
address. -/
def edge : State :=
  ((State.reset.setStack (List.replicate 16 0x1000)).setPc 0x10FE).setTimers 999999999 255 255

/-- It meets the invariant. -/
theorem edge_inv : edge.Inv where
  mem := by decide
  stackLength := by decide
  stackEntries := by simp [edge, State.setStack, State.setPc, State.setTimers]
  pc := by simp [edge, State.setStack, State.setPc, State.setTimers]
  tacc := by decide
  faulted := by decide
  record := by intro f h; cases h
  waiting := by decide
  latch := by decide
  font := by decide

/-- StepKeepsInvariant, StepKeepsParameters, ExecutionStateTransitions: that state takes a step, and each
event. -/
theorem witness_invariant :
    edge.Inv ∧ look (step edge) (fun t => t.exec) = some .faulted ∧
    look (deliver .cycle edge) (fun t => t.exec) = some .faulted ∧
    look (deliver (.time 1) edge) (fun t => t.dt) = some 254 ∧
    look (deliver (.key 0 true) edge) (fun t => t.last) = some (some 0) ∧
    look (deliver .stop edge) (fun t => t.exec) = some .halted ∧
    look (deliver .reset edge) (fun t => t.pc) = some 0x200 ∧
    look (deliver (.load [0x12]) edge) (fun t => t.pc) = some 0x200 :=
  ⟨edge_inv, by decide⟩

/-- OnlyStoresWriteMemory, OnlyFiveInstructionsWriteIndex, OnlyDisplayWritesFramebuffer,
OnlyCallAndReturnMoveStack, TimersAndLatchWriters, FlagRegisterWriters: an instruction that does write. -/
theorem witness_writers :
    look (exec (.ldB 5) (regs [(5, 7)])) (fun t => t.mem) ≠ some (regs [(5, 7)]).mem ∧
    look (exec (.ldI 5) State.reset) (fun t => t.i) ≠ some State.reset.i ∧
    look (exec .cls (State.reset.setFb (FrameBuf.flip FrameBuf.clear 5 7))) (fun t => (t.fb, t.exec)) =
      some (FrameBuf.clear, .running) ∧
    look (exec (.call 0x300) State.reset) (fun t => t.stack) ≠ some State.reset.stack ∧
    look (exec .ret (deep 1)) (fun t => t.stack) ≠ some (deep 1).stack ∧
    look (exec (.ldDtVx 1) (regs [(1, 7)])) (fun t => t.dt) ≠ some State.reset.dt ∧
    look (exec (.ldStVx 1) (regs [(1, 7)])) (fun t => t.st) ≠ some State.reset.st ∧
    look (exec (.addReg 1 1) (regs [(1, 0x80)])) (fun t => t.getV 15) ≠ some 0 ∧
    look (exec (.ldImm 15 7) State.reset) (fun t => t.getV 15) ≠ some 0 := by decide

/-- NestedCallsReturn: the fewest and the most nested calls from an empty stack, and the calls that fill it
(an empty list on a full stack, sixteen on an empty one). -/
theorem witness_nested :
    (([0x20E] : List Word).length = ([] : List (Word × Addr)).length + 1 ∧
      State.reset.stack.length + ([0x20E] : List Word).length ≤ 16) ∧
    ((List.replicate 16 (0x302 : Word)).length =
        (List.replicate 15 ((0x302 : Word), (0x300 : Addr))).length + 1 ∧
      State.reset.stack.length + (List.replicate 16 (0x302 : Word)).length ≤ 16) ∧
    (deep 16).stack.length + ([] : List (Word × Addr)).length = 16 ∧
    State.reset.stack.length + (List.replicate 16 ((0x202 : Word), (0x200 : Addr))).length = 16 := by
  decide

/-- StoredRegistersLoadBack, TV-M19: a store just after the running instruction. -/
theorem witness_store :
    ∃ t, exec (.ldMemVx 1) ((regs [(0, 0x12), (1, 0x08)]).setI 0x202) = .next t ∧
      ((regs [(0, 0x12), (1, 0x08)]).setI 0x202).mem.wf ∧
      ((regs [(0, 0x12), (1, 0x08)]).setI 0x202).indexAddr + (1 : Nib).toNat < 4096 ∧
      (t.setI 0x202).mem = t.mem ∧
      (t.setI 0x202).i = ((regs [(0, 0x12), (1, 0x08)]).setI 0x202).i :=
  ⟨_, rfl, by decide, by decide, rfl, rfl⟩

/-- FetchSeesStore for FX55, the last two bytes of memory and a later state that fetches there: the word
of the two registers. -/
theorem witness_fetch_stored :
    ∃ t, exec (.ldMemVx 1) ((regs [(0, 0x12), (1, 0x08)]).setI 0xFFE) = .next t ∧
      ((regs [(0, 0x12), (1, 0x08)]).setI 0xFFE).mem.wf ∧
      ((regs [(0, 0x12), (1, 0x08)]).setI 0xFFE).indexAddr + (1 : Nib).toNat < 4096 ∧
      (∀ a ∈ [0xFFE, 0xFFF], ((t.setPc 0xFFE).setV 0 9).readByte a = t.readByte a) ∧
      ((t.setPc 0xFFE).setV 0 9).fetchWord = 0x1208 :=
  ⟨_, rfl, by decide, by decide, by decide, by decide⟩

/-- FetchSeesStore for FX33, at the last three bytes of memory, and a fetch of one old and one stored
byte. -/
theorem witness_fetch_digits :
    ∃ t, exec (.ldB 5) (bytes 0xFFC [0x60] ((regs [(5, 0x9C)]).setI 0xFFD)) = .next t ∧
      (bytes 0xFFC [0x60] ((regs [(5, 0x9C)]).setI 0xFFD)).mem.wf ∧
      (bytes 0xFFC [0x60] ((regs [(5, 0x9C)]).setI 0xFFD)).indexAddr + 2 < 4096 ∧
      (∀ a ∈ [0xFFC, 0xFFD], (t.setPc 0xFFC).readByte a = t.readByte a) ∧
      (t.setPc 0xFFC).fetchWord = 0x6001 :=
  ⟨_, rfl, by decide, by decide, by decide, by decide⟩

end Sys2Proof.Tests
end

section
/-! What a Reset leaves, and what an event can do to `EXEC` outside `Running` (10_state.md R49,
60_exceptions.md R328, 70_reset_and_hazards.md R380). -/

namespace Sys2Proof.Machine

/-! ## The reset values -/

/-- A reset framebuffer has no lit cell. -/
theorem State.fbAt_toReset (s : State) (cx cy : Nat) : s.toReset.fbAt cx cy = false :=
  FrameBuf.get_clear cx cy

theorem State.getV_toReset (s : State) (k : Nib) : s.toReset.getV k = 0 :=
  Vector.getElem_replicate k.isLt

theorem State.key_toReset (s : State) (k : Nib) : s.toReset.key k = false :=
  Vector.getElem_replicate k.isLt

/-- Memory lists no address after a reset, so every byte is 0. -/
theorem State.readByte_toReset (s : State) (a : Nat) : s.toReset.readByte a = 0 := rfl

/-- The scalar fields are the literals of `State.reset`; the vectors are constant. -/
theorem State.registersAtReset_toReset (s : State) : s.toReset.RegistersAtReset :=
  ⟨s.getV_toReset, rfl, rfl, rfl, rfl, rfl, rfl, s.fbAt_toReset, s.key_toReset,
    rfl, rfl, rfl, rfl, rfl, rfl⟩

/-- The reset state is a fixed point of a Reset, so what holds after a Reset holds of it. -/
theorem State.toReset_reset : State.reset.toReset = State.reset := rfl

/-! ## `EXEC` outside `Running` -/

@[simp] theorem State.exec_latch (s : State) (k : Nib) (p : Bool) : (s.latch k p).exec = s.exec := by
  rw [State.latch_eq, State.setLast_exec, State.setKey_exec]

/-- A Key event ends a key wait but never moves `EXEC`. -/
@[simp] theorem State.exec_keyEvent (s : State) (k : Nib) (p : Bool) :
    (s.keyEvent k p).exec = s.exec := by
  obtain ⟨x, -, -, -, h⟩ | ⟨-, h⟩ := s.keyEvent_cases k p
  · rw [h, State.setWait_exec, State.setV_exec, State.exec_latch]
  · rw [h, State.exec_latch]

/-- Outside `Running` a Stop does nothing (60_exceptions.md R362). -/
theorem State.stop_frozen (s : State) (h : s.exec ≠ .running) : s.stop = s := by
  unfold State.stop
  cases hx : s.exec with
  | running => exact absurd hx h
  | faulted | halted => rfl

/-- A Cycle that answers a next state ran in `Running` (40_execution_loop.md R147). -/
theorem exec_running_of_cycle_next {s t : State} (h : cycle s = .next t) : s.exec = .running := by
  unfold cycle at h
  cases hx : s.exec with
  | running => rfl
  | faulted | halted => simp [hx] at h

/-- Outside `Running`, an event that moves `EXEC` is a Reset or a Load (60_exceptions.md R328). -/
theorem reset_or_load_of_exec_ne {e : Event} {s t : State} (hs : s.exec ≠ .running)
    (h : deliver e s = .next t) (hne : t.exec ≠ s.exec) : e = .reset ∨ ∃ img, e = .load img := by
  cases e with
  | reset => exact .inl rfl
  | load img => exact .inr ⟨img, rfl⟩
  | cycle => exact absurd (exec_running_of_cycle_next h) hs
  | time dt =>
    cases h
    exact absurd (congrArg State.exec (s.elapse_frozen dt hs)) hne
  | key k p =>
    cases h
    exact absurd (s.exec_keyEvent k p) hne
  | stop =>
    cases h
    exact absurd (congrArg State.exec (s.stop_frozen hs)) hne

/-- Settles O39: a Reset is `State.toReset`, whose fields are the reset values; every other event but a
Load keeps `EXEC` outside `Running`. -/
theorem resetGivesResetValues : Obligations.ResetGivesResetValues := by
  unfold Obligations.ResetGivesResetValues
  refine ⟨?_, fun s => ⟨⟨s.toReset, rfl, s.registersAtReset_toReset, s.readByte_toReset⟩, ?_⟩⟩
  · rw [← State.toReset_reset]
    exact ⟨State.registersAtReset_toReset _, State.readByte_toReset _⟩
  · exact fun e t => reset_or_load_of_exec_ne

end Sys2Proof.Machine
end

section
/-! The field decoder as mask and shift, and first match over the dispatch table (30_encoding.md R101,
R104). -/

namespace Sys2Proof

/-! ## A field as mask and shift -/

/-- The `n`-bit field at bit `k`: keep the `n` bits from `k` up, and shift them down. -/
theorem zeroExtend_extractLsb' {mask : Word} (w : Word) (k n : Nat)
    (hm : mask = (BitVec.allOnes n).zeroExtend 16 <<< k) :
    (w.extractLsb' k n).zeroExtend 16 = (w &&& mask) >>> k := by
  subst hm
  apply BitVec.eq_of_getLsbD_eq
  intro j hj
  simp only [BitVec.getLsbD_setWidth, BitVec.getLsbD_extractLsb', BitVec.getLsbD_ushiftRight,
    BitVec.getLsbD_and, BitVec.getLsbD_shiftLeft, BitVec.getLsbD_allOnes]
  by_cases hw : k + j < 16
  · simp [hj, hw, Bool.and_comm]
  · simp [BitVec.getLsbD_of_ge w (k + j) (by omega)]

/-- A field at bit 0 needs no shift. -/
theorem zeroExtend_extractLsb'_zero {mask : Word} (w : Word) (n : Nat)
    (hm : mask = (BitVec.allOnes n).zeroExtend 16 <<< 0) :
    (w.extractLsb' 0 n).zeroExtend 16 = w &&& mask := by
  rw [zeroExtend_extractLsb' w 0 n hm, BitVec.ushiftRight_zero]

/-- Settles O1: each field is an `extractLsb'`, which is the source's mask and shift. -/
theorem fieldDecoderExtractsFiveFields : Obligations.FieldDecoderExtractsFiveFields := by
  unfold Obligations.FieldDecoderExtractsFiveFields
  exact fun w => ⟨zeroExtend_extractLsb'_zero w 12 (by decide),
    zeroExtend_extractLsb'_zero w 8 (by decide), zeroExtend_extractLsb'_zero w 4 (by decide),
    zeroExtend_extractLsb' w 8 4 (by decide), zeroExtend_extractLsb' w 4 4 (by decide)⟩

/-! ## First match -/

theorem matches_eq_false_iff (r : Row) (w : Word) : r.matches w = false ↔ w &&& r.mask ≠ r.bits := by
  rw [← Bool.not_eq_true, Machine.matches_iff]

/-- The row dispatched is the one that matches after rows that do not. -/
theorem dispatch_eq_some_iff (w : Word) (r : Row) :
    dispatch w = some r ↔ w &&& r.mask = r.bits ∧ ∃ before after,
      dispatchTable = before ++ r :: after ∧ ∀ e ∈ before, w &&& e.mask ≠ e.bits := by
  simp only [dispatch, List.find?_eq_some_iff_append, Machine.matches_iff, Bool.not_eq_true',
    matches_eq_false_iff]

/-- No row is dispatched exactly when none matches. -/
theorem dispatch_eq_none_iff (w : Word) :
    dispatch w = none ↔ ∀ e ∈ dispatchTable, w &&& e.mask ≠ e.bits := by
  simp only [dispatch, List.find?_eq_none, Machine.matches_iff, ne_eq]

theorem decodeWord_of_dispatch_some {w : Word} {r : Row} (h : dispatch w = some r) :
    decodeWord w = .ok (r.handler (fieldsOf w)) := by
  simp only [decodeWord, h]

theorem decodeWord_of_dispatch_none {w : Word} (h : dispatch w = none) :
    decodeWord w = .error (.noMatch w) := by
  simp only [decodeWord, h]

/-- Settles O2: `dispatch` finds the first row that matches, and the decoder follows it. -/
theorem firstMatchWins : Obligations.FirstMatchWins := by
  unfold Obligations.FirstMatchWins
  refine ⟨rfl, fun w before after r htable hmatch hbefore => ?_, fun w hnone => ?_⟩
  · exact decodeWord_of_dispatch_some
      ((dispatch_eq_some_iff w r).2 ⟨hmatch, before, after, htable, hbefore⟩)
  · exact decodeWord_of_dispatch_none ((dispatch_eq_none_iff w).2 hnone)

end Sys2Proof
end

section
/-! The execution loop (40_execution_loop.md): what operations leave unchanged, how an instruction can
end, the three ways of an enabled Cycle, and what each event does to `EXEC` and `WAIT`. -/

namespace Sys2Proof.Machine

/-! ## Frames -/

/-- What two changes in a row leave unchanged: what neither names. -/
theorem OnlyChanged.trans {l m : List Field} {s t u : State} (h₁ : OnlyChanged l s t)
    (h₂ : OnlyChanged m t u) : OnlyChanged (l ++ m) s u := by
  intro f hf
  rw [List.mem_append, not_or] at hf
  have hst := h₁ f hf.1
  have htu := h₂ f hf.2
  cases f with
  | v | keys | mem => exact fun k => (htu k).trans (hst k)
  | _ => exact htu.trans hst

theorem State.onlyChanged_setPc (s : State) (w : Word) : OnlyChanged [.pc] s (s.setPc w) := by
  intro f hf
  cases f <;> simp_all [Agree]

theorem State.onlyChanged_addDiag (s : State) (k : DiagKind) (a w : Word) :
    OnlyChanged [.diag] s (s.addDiag k a w) := by
  intro f hf
  cases f <;> simp_all [Agree]

theorem State.onlyChanged_raise (s : State) (c : Cause) (a : Word) (w : Option Word) (n : Option Nat) :
    OnlyChanged [.exec, .fault] s (s.raise c a w n) := by
  intro f hf
  cases f <;> simp_all [Agree]

/-- A raised fault is entered with its record and nothing else (60_exceptions.md R325). -/
theorem faultsWith_raise (s : State) (c : Cause) (a : Word) (w : Option Word) (n : Option Nat) :
    FaultsWith (.next (s.raise c a w n)) s ⟨c, a, w, n⟩ [] :=
  ⟨s.raise c a w n, rfl, rfl, rfl, s.onlyChanged_raise c a w n⟩

/-! ## How an instruction ends -/

@[simp] theorem State.exec_skipIf (s : State) (c : Bool) : (s.skipIf c).exec = s.exec := by
  rw [State.skipIf_eq, State.setPc_exec]

@[simp] theorem State.fault_skipIf (s : State) (c : Bool) : (s.skipIf c).fault = s.fault := by
  rw [State.skipIf_eq, State.setPc_fault]

/-- An instruction completes with `EXEC` and `FAULT` as they were, or raises the one cause its own check
can raise, with an address for BoundsData only (60_exceptions.md R320, R321). -/
theorem exec_cases (i : Instr) (s : State) :
    (∃ t, exec i s = .next t ∧ t.exec = s.exec ∧ t.fault = s.fault) ∨
    (∃ c a, ownCause i = some c ∧ (a ≠ none ↔ c = .boundsData) ∧
      exec i s = s.raiseIn c (encode i) a) := by
  cases i with
  | ret =>
    obtain ⟨l, a, -, h⟩ | ⟨-, -, h⟩ | ⟨-, -, h⟩ := execRet_cases s
    · exact .inl ⟨_, h, rfl, rfl⟩
    · exact .inr ⟨_, _, rfl, by decide, h⟩
    · exact .inl ⟨_, h, rfl, rfl⟩
  | call nnn =>
    obtain ⟨-, h⟩ | ⟨-, h⟩ := execCall_cases s nnn
    · exact .inl ⟨_, h, rfl, rfl⟩
    · exact .inr ⟨_, _, rfl, by decide, h⟩
  | drw x y n =>
    obtain ⟨-, h⟩ | ⟨-, h⟩ := execDrw_cases s x y n
    · exact .inl ⟨_, h, rfl, rfl⟩
    · exact .inr ⟨_, _, rfl, by simp, h⟩
  | ldB x =>
    obtain ⟨-, h⟩ | ⟨-, h⟩ := execLdB_cases s x
    · exact .inl ⟨_, h, rfl, rfl⟩
    · exact .inr ⟨_, _, rfl, by simp, h⟩
  | ldMemVx x =>
    obtain ⟨-, h⟩ | ⟨-, h⟩ := execLdMemVx_cases s x
    · exact .inl ⟨_, h, rfl, rfl⟩
    · exact .inr ⟨_, _, rfl, by simp, h⟩
  | ldVxMem x =>
    obtain ⟨-, h⟩ | ⟨-, h⟩ := execLdVxMem_cases s x
    · exact .inl ⟨_, h, rfl, rfl⟩
    · exact .inr ⟨_, _, rfl, by simp, h⟩
  | seImm | sneImm | seReg | sneReg | skp | sknp =>
    exact .inl ⟨_, rfl, State.exec_skipIf _ _, State.fault_skipIf _ _⟩
  | cls | sys | jp | ldImm | addImm | ldReg | orReg | andReg | xorReg | addReg | sub | shr | subn | shl
  | ldI | jpV0 | rnd | ldVxDt | ldVxK | ldDtVx | ldStVx | addI | ldF =>
    exact .inl ⟨_, rfl, rfl, rfl⟩

/-- No instruction stops the machine: a fault too is a next state. -/
theorem exec_answers_next (i : Instr) (s : State) : ∃ t, exec i s = .next t := by
  obtain ⟨t, h, -, -⟩ | ⟨c, a, -, -, h⟩ := exec_cases i s
  · exact ⟨t, h⟩
  · exact ⟨_, h⟩

/-! ## The ways of an enabled Cycle -/

/-- During execution `PC` is two past the address the cycle fetched from (10_state.md R34). -/
@[simp] theorem State.ipc_setPc_add_two (s : State) : (s.setPc (s.pc + 2)).ipc = s.pc := by
  simp [State.ipc]

theorem decodeFault_of_fault (s : State) (w : Word) (h : s.params.decodeFault = .fault) :
    decodeFault w s = s.raise .decode s.ipc (some w) none := by
  simp only [decodeFault, h]

theorem decodeFault_of_skip (s : State) (w : Word) (h : s.params.decodeFault = .skip) :
    decodeFault w s = s.addDiag .decodeSkip s.ipc w := by
  simp only [decodeFault, h]

/-- Under either policy the advance of `PC` stands (40_execution_loop.md R142). -/
@[simp] theorem pc_decodeFault (w : Word) (s : State) : (decodeFault w s).pc = s.pc := by
  cases h : s.params.decodeFault with
  | fault => rw [decodeFault_of_fault s w h, State.raise_pc]
  | skip => rw [decodeFault_of_skip s w h, State.addDiag_pc]

section Enabled

variable {s : State} (hexec : s.exec = .running) (hwait : s.wait = none)
include hexec hwait

theorem cycle_eq_runCycle : cycle s = runCycle s := by
  simp only [cycle, hexec, hwait]

/-- Past the bound nothing is fetched (40_execution_loop.md R140). -/
theorem cycle_of_fetch_out_of_bounds (hpc : s.pc.toNat + 1 > 0xFFF) :
    cycle s = .next (s.raise .boundsFetch s.pc none (some (max s.pc.toNat 0x1000))) := by
  simp only [cycle_eq_runCycle hexec hwait, runCycle, fetchFault, if_pos hpc]

theorem cycle_of_decodeWord_ok (hpc : s.pc.toNat + 1 ≤ 0xFFF) {i : Instr}
    (hi : decodeWord s.fetchWord = .ok i) : cycle s = exec i (s.setPc (s.pc + 2)) := by
  simp only [cycle_eq_runCycle hexec hwait, runCycle, (fetchFault_none _).2 hpc, hi]

theorem cycle_of_decodeWord_error (hpc : s.pc.toNat + 1 ≤ 0xFFF) {e : DecodeError}
    (he : decodeWord s.fetchWord = .error e) :
    cycle s = .next (decodeFault s.fetchWord (s.setPc (s.pc + 2))) := by
  simp only [cycle_eq_runCycle hexec hwait, runCycle, (fetchFault_none _).2 hpc, he]

theorem cycle_answers_next : ∃ t, cycle s = .next t := by
  by_cases hpc : s.pc.toNat + 1 ≤ 0xFFF
  · cases hw : decodeWord s.fetchWord with
    | ok i => rw [cycle_of_decodeWord_ok hexec hwait hpc hw]; exact exec_answers_next i _
    | error e => exact ⟨_, cycle_of_decodeWord_error hexec hwait hpc hw⟩
  · exact ⟨_, cycle_of_fetch_out_of_bounds hexec hwait (Nat.lt_of_not_le hpc)⟩

end Enabled

/-- The lowest address of the fetch that is out of range (40_execution_loop.md R140). -/
theorem lowest_fetch_address_out_of_range {pc : Word} (h : pc.toNat + 1 > 0xFFF) :
    max pc.toNat 0x1000 = if pc = 0xFFF then 0x1000 else pc.toNat := by
  split
  · next heq => subst heq; rfl
  · next hne =>
    have : pc.toNat ≠ 0xFFF := fun heq => hne (BitVec.eq_of_toNat_eq heq)
    omega

/-- A Cycle completes with `EXEC` and `FAULT` as they were, or enters `Faulted` with a record
(40_execution_loop.md R150). -/
theorem cycle_completes_or_faults {s t : State} (h : cycle s = .next t) :
    (t.exec = s.exec ∧ t.fault = s.fault) ∨ (t.exec = .faulted ∧ ∃ f, t.fault = some f) := by
  obtain ⟨-, ⟨a, -, -, rfl⟩ | ⟨-, ⟨i, -, hi⟩ | ⟨-, ⟨-, rfl⟩ | ⟨-, rfl⟩⟩⟩⟩ := cycle_cases s t h
  · exact .inr ⟨rfl, _, rfl⟩
  · obtain ⟨u, hu, hexec, hfault⟩ | ⟨c, a, -, -, hc⟩ := exec_cases i (s.setPc (s.pc + 2))
    · cases hu.symm.trans hi
      exact .inl ⟨hexec, hfault⟩
    · cases hc.symm.trans hi
      exact .inr ⟨rfl, _, rfl⟩
  · exact .inr ⟨rfl, _, rfl⟩
  · exact .inl ⟨rfl, rfl⟩

/-! ## What the other events do to `EXEC` and `WAIT` -/

@[simp] theorem State.exec_elapse (s : State) (dt : Nat) : (s.elapse dt).exec = s.exec := by
  by_cases h : s.exec = .running
  · rw [s.elapse_running dt h, State.setTimers_exec]
  · rw [s.elapse_frozen dt h]

/-- In `Running` a Stop halts the machine and drops its key wait (60_exceptions.md R362). -/
theorem State.stop_running (s : State) (h : s.exec = .running) :
    s.stop = (s.setExec .halted).setWait none := by
  simp only [State.stop, h]

theorem State.exec_stop (s : State) :
    s.stop.exec = if s.exec = .running then .halted else s.exec := by
  split
  · next h => rw [s.stop_running h, State.setWait_exec, State.setExec_exec]
  · next h => rw [s.stop_frozen h]

@[simp] theorem State.wait_latch (s : State) (k : Nib) (p : Bool) : (s.latch k p).wait = s.wait := by
  rw [State.latch_eq, State.setLast_wait, State.setKey_wait]

/-- After a fresh press no key wait stands (45_timer_input.md R296). -/
theorem State.wait_keyEvent_of_fresh (s : State) {k : Nib} (h : s.key k = false) :
    (s.keyEvent k true).wait = none := by
  obtain ⟨x, -, -, -, heq⟩ | ⟨hwait | hheld, heq⟩ := s.keyEvent_cases k true
  · rw [heq, State.setWait_wait]
  · rw [heq, State.wait_latch, hwait]
  · exact absurd ⟨rfl, h⟩ hheld

/-- A Load that is no error is the loaded machine. -/
theorem eq_loadImage_of_loadEvent_next {s t : State} {img : List Byte}
    (h : loadEvent img s = .next t) : t = s.loadImage img := by
  simp only [loadEvent] at h
  split_ifs at h
  cases h
  rfl

/-- A Load begins with a reset, and the font and the image are memory only (70_reset_and_hazards.md
R385). -/
theorem State.exec_loadImage (s : State) (img : List Byte) : (s.loadImage img).exec = .running := by
  simp only [State.loadImage, State.setMem_exec, State.preloadFont_eq]
  rfl

/-! ## The obligations -/

/-- Settles O11: an enabled Cycle is a fault or an `exec`, which answer a next state; a fresh press, a Stop
and a Reset leave `WAIT` none. -/
theorem cycleOnlyWhenEnabled : Obligations.CycleOnlyWhenEnabled := by
  unfold Obligations.CycleOnlyWhenEnabled
  refine fun s => ⟨⟨?_, fun ⟨hexec, hwait⟩ => cycle_answers_next hexec hwait⟩, ?_, ?_⟩
  · rintro ⟨t, h⟩
    exact (cycle_cases s t h).1
  · exact fun e t hs h ht => reset_or_load_of_exec_ne hs h (by rw [ht]; exact hs.symm)
  · intro hexec _
    refine ⟨fun k hk => ⟨s.keyEvent k true, rfl, s.wait_keyEvent_of_fresh hk, ?_⟩,
      ⟨s.stop, rfl, by rw [s.stop_running hexec, State.setWait_wait]⟩, ⟨s.toReset, rfl, rfl⟩⟩
    rw [State.exec_keyEvent, hexec]

/-- Settles O13: event by event; the invariant says that no fault is recorded when a Cycle begins. -/
theorem executionStateTransitions : Obligations.ExecutionStateTransitions := by
  unfold Obligations.ExecutionStateTransitions
  intro s t e hinv h
  cases e with
  | cycle =>
    have hexec : s.exec = .running := exec_running_of_cycle_next h
    have hfault : s.fault = none := by
      by_contra hne
      exact absurd (hexec.symm.trans (hinv.faulted.2 hne)) (by decide)
    obtain ⟨he, hf⟩ | ⟨he, f, hf⟩ := cycle_completes_or_faults h
    · simp [he, hf, hexec, hfault]
    · simp [he, hf, hexec]
  | time dt => cases h; exact s.exec_elapse dt
  | key k p => cases h; exact s.exec_keyEvent k p
  | stop => cases h; exact s.exec_stop
  | reset => cases h; rfl
  | load img => rw [eq_loadImage_of_loadEvent_next h]; exact s.exec_loadImage img

/-- Settles O8: the fetched word is the shift and the or, and both ways of a word in bounds start from the
advanced `PC`. -/
theorem cycleFetchesAdvancesExecutes : Obligations.CycleFetchesAdvancesExecutes := by
  unfold Obligations.CycleFetchesAdvancesExecutes
  intro s w hexec hwait hpc hw
  obtain rfl : w = s.fetchWord := hw.trans (wordOfBytes_eq_or _ _).symm
  exact ⟨fun i hi => cycle_of_decodeWord_ok hexec hwait hpc hi,
    fun e he => ⟨_, cycle_of_decodeWord_error hexec hwait hpc he, pc_decodeFault _ _⟩⟩

/-- Settles O9: the fault is raised at once, on the state as it was. -/
theorem fetchOutOfBoundsFaults : Obligations.FetchOutOfBoundsFaults := by
  unfold Obligations.FetchOutOfBoundsFaults
  intro s hexec hwait hpc
  rw [deliver, cycle_of_fetch_out_of_bounds hexec hwait hpc, lowest_fetch_address_out_of_range hpc]
  exact faultsWith_raise ..

/-- Settles O10: a word that is not decoded goes to `decodeFault`, one case per policy. -/
theorem unmatchedWordFollowsPolicy : Obligations.UnmatchedWordFollowsPolicy := by
  unfold Obligations.UnmatchedWordFollowsPolicy
  refine ⟨rfl, fun s w hexec hwait hpc hw hnone => ?_⟩
  obtain rfl : w = s.fetchWord := hw
  have hcycle : deliver .cycle s = .next (decodeFault s.fetchWord (s.setPc (s.pc + 2))) := by
    cases hd : decodeWord s.fetchWord with
    | ok i => exact absurd hd (hnone i)
    | error e => exact cycle_of_decodeWord_error hexec hwait hpc hd
  refine ⟨fun hpolicy => ?_, fun hpolicy => ⟨_, hcycle, pc_decodeFault _ _, ?_⟩⟩
  · rw [hcycle, decodeFault_of_fault (s.setPc (s.pc + 2)) _ hpolicy, State.ipc_setPc_add_two]
    exact faultsWith_raise ..
  · rw [decodeFault_of_skip (s.setPc (s.pc + 2)) _ hpolicy, State.ipc_setPc_add_two]
    exact ⟨rfl, (s.onlyChanged_setPc _).trans (State.onlyChanged_addDiag _ _ _ _)⟩

end Sys2Proof.Machine
end

section
/-! Control flow (41_flow.md): rows under one mask as the opcode map has them, what the shared operations
leave unchanged, and the six statements of the family. -/

namespace Sys2Proof.Machine

/-! ## Rows under one mask -/

/-- A row of mask 0xF000 is the opcode map's family of its first nibble (30_encoding.md R104). -/
theorem encodedAs_F000 (k : Nib) {row : Nat} {bits : Word} {shadow : List Word} {mk : Fields → Instr}
    (hbits : bits = (k ++ 0#4 ++ 0#4 ++ 0#4 : Word))
    (hrow : (dispatchTable[row]?).map (fun r => (r.bits, r.mask)) = some (bits, 0xF000))
    (hmap : ∀ b c d : Nib, (k ++ b ++ c ++ d : Word) ∉ shadow →
      opcodeMap k b c d = some (mk ⟨b ++ c ++ d, c ++ d, d, b, c⟩)) :
    EncodedAs row bits 0xF000 shadow mk := by
  refine encodedAs_of_opcodeMap row bits 0xF000 shadow mk hrow fun a b c d hmask hshadow => ?_
  obtain rfl := (and_F000 hbits).1 hmask
  exact hmap b c d hshadow

/-- A row of mask 0xF00F is the opcode map's entry of its outer nibbles (30_encoding.md R104). -/
theorem encodedAs_F00F (k l : Nib) {row : Nat} {bits : Word} {shadow : List Word} {mk : Fields → Instr}
    (hbits : bits = (k ++ 0#4 ++ 0#4 ++ l : Word))
    (hrow : (dispatchTable[row]?).map (fun r => (r.bits, r.mask)) = some (bits, 0xF00F))
    (hmap : ∀ b c : Nib, (k ++ b ++ c ++ l : Word) ∉ shadow →
      opcodeMap k b c l = some (mk ⟨b ++ c ++ l, c ++ l, l, b, c⟩)) :
    EncodedAs row bits 0xF00F shadow mk := by
  refine encodedAs_of_opcodeMap row bits 0xF00F shadow mk hrow fun a b c d hmask hshadow => ?_
  obtain ⟨rfl, rfl⟩ := (and_F00F hbits).1 hmask
  exact hmap b c hshadow

/-- A row of mask 0xFFFF is the opcode map's entry of one word (30_encoding.md R104). -/
theorem encodedAs_FFFF (k j l m : Nib) {row : Nat} {bits : Word} {mk : Fields → Instr}
    (hbits : bits = (k ++ j ++ l ++ m : Word))
    (hrow : (dispatchTable[row]?).map (fun r => (r.bits, r.mask)) = some (bits, 0xFFFF))
    (hmap : opcodeMap k j l m = some (mk ⟨j ++ l ++ m, l ++ m, m, j, l⟩)) :
    EncodedAs row bits 0xFFFF [] mk := by
  refine encodedAs_of_opcodeMap row bits 0xFFFF [] mk hrow fun a b c d hmask _ => ?_
  obtain ⟨rfl, rfl, rfl, rfl⟩ := (and_FFFF hbits).1 hmask
  exact hmap

/-- The words of first nibble 0 that are not `CLS` or `RET` are `SYS` (30_encoding.md R106). -/
theorem opcodeMap_sys {b c d : Nib} (h : (0#4 ++ b ++ c ++ d : Word) ∉ [0x00E0, 0x00EE]) :
    opcodeMap 0 b c d = some (.sys (b ++ c ++ d)) := by
  have hcls : ¬(b = 0x0 ∧ c = 0xE ∧ d = 0x0) := by rintro ⟨rfl, rfl, rfl⟩; exact h (by decide)
  have hret : ¬(b = 0x0 ∧ c = 0xE ∧ d = 0xE) := by rintro ⟨rfl, rfl, rfl⟩; exact h (by decide)
  simp only [opcodeMap, if_true, if_neg hcls, if_neg hret]

/-! ## What the shared operations leave unchanged -/

theorem State.onlyChanged_setStack (s : State) (l : List Word) :
    OnlyChanged [.stack] s (s.setStack l) := by
  intro f hf
  cases f <;> simp_all [Agree]

theorem State.onlyChanged_setStack_setPc (s : State) (l : List Word) (w : Word) :
    OnlyChanged [.pc, .stack] s ((s.setStack l).setPc w) :=
  (s.onlyChanged_setPc w).trans ((s.setPc w).onlyChanged_setStack l)

theorem State.onlyChanged_skipIf (s : State) (c : Bool) : OnlyChanged [.pc] s (s.skipIf c) := by
  rw [s.skipIf_eq c]
  exact s.onlyChanged_setPc _

/-- A fault raised by an instruction's own check carries the address two before `PC` and the
instruction's word (40_execution_loop.md R146). -/
theorem State.faultsWith_raiseIn (s : State) (c : Cause) (w : Word) (a : Option Nat) :
    FaultsWith (s.raiseIn c w a) s ⟨c, s.pc - 2, some w, a⟩ [] :=
  faultsWith_raise s c s.ipc (some w) a

/-! ## Skips (41_flow.md R180) -/

theorem State.pc_skipIf_beq (s : State) (a b : Byte) :
    (s.skipIf (a == b)).pc = if a = b then s.pc + 2 else s.pc := by
  simp [State.skipIf_eq]

theorem State.pc_skipIf_bne (s : State) (a b : Byte) :
    (s.skipIf (a != b)).pc = if a = b then s.pc else s.pc + 2 := by
  simp [State.skipIf_eq]

/-! ## The stack's instructions (41_flow.md R171, R173) -/

theorem execRet_of_stack_append {s : State} {below : List Word} {a : Word} (h : s.stack = below ++ [a]) :
    execRet s = .next ((s.setStack below).setPc a) := by
  simp only [execRet, s.pop_append below a h]

theorem execRet_of_empty_fault {s : State} (h : s.stack = []) (hpolicy : s.params.retEmpty = .fault) :
    execRet s = s.raiseIn .stackUnderflow (encode .ret) none := by
  simp only [execRet, s.pop_empty h, hpolicy]

theorem execRet_of_empty_ignoreReported {s : State} (h : s.stack = [])
    (hpolicy : s.params.retEmpty = .ignoreReported) :
    execRet s = .next (s.addDiag .retEmpty s.ipc (encode .ret)) := by
  simp only [execRet, s.pop_empty h, hpolicy]

theorem execCall_of_room {s : State} (nnn : Addr) (h : s.stack.length < 16) :
    execCall nnn s = .next ((s.setStack (s.stack ++ [s.pc])).setPc (addrWord nnn)) := by
  simp only [execCall, s.push_room s.pc h]

theorem execCall_of_full {s : State} (nnn : Addr) (h : 16 ≤ s.stack.length) :
    execCall nnn s = s.raiseIn .stackOverflow (encode (.call nnn)) none := by
  simp only [execCall, s.push_full s.pc h]

/-! ## The target of JP V0 (41_flow.md R176) -/

@[simp] theorem toNat_addrWord (nnn : Addr) : (addrWord nnn).toNat = nnn.toNat :=
  BitVec.toNat_setWidth_of_le (by decide)

@[simp] theorem toNat_byteWord (b : Byte) : (byteWord b).toNat = b.toNat :=
  BitVec.toNat_setWidth_of_le (by decide)

/-- 12 bits and 8 bits sum to at most 0x10FE, so 16 bits hold the sum. -/
theorem State.toNat_offsetTarget (s : State) (nnn : Addr) :
    (s.offsetTarget nnn).toNat = nnn.toNat + (s.getV 0).toNat := by
  have hnnn := nnn.isLt
  have hv := (s.getV 0).isLt
  rw [State.offsetTarget, BitVec.toNat_add, toNat_addrWord, toNat_byteWord]
  omega

/-! ## The obligations -/

/-- Settles O14: the opcode map gives first nibble 0 to `SYS` off the two shadowed words, and its meaning
answers the state it was given. -/
theorem sysDoesNothing : Obligations.SysDoesNothing := by
  unfold Obligations.SysDoesNothing
  exact ⟨encodedAs_F000 0 rfl rfl fun _ _ _ => opcodeMap_sys, fun _ _ => rfl⟩

/-- Settles O15: the mask leaves the one word, and `RET` has one answer for a stack with a newest entry and
one per policy for an empty stack. -/
theorem retPopsProgramCounter : Obligations.RetPopsProgramCounter := by
  unfold Obligations.RetPopsProgramCounter
  refine ⟨encodedAs_FFFF 0x0 0x0 0xE 0xE rfl rfl rfl, rfl, fun s below a h => ?_,
    fun s h hpolicy => ?_, fun s h hpolicy => ?_⟩
  · exact ⟨_, execRet_of_stack_append h, rfl, rfl, s.onlyChanged_setStack_setPc below a⟩
  · rw [exec, execRet_of_empty_fault h hpolicy]
    exact s.faultsWith_raiseIn ..
  · exact ⟨_, execRet_of_empty_ignoreReported h hpolicy, rfl, s.onlyChanged_addDiag _ _ _⟩

/-- Settles O16: `JP` is one write of `PC`. -/
theorem jumpSetsProgramCounter : Obligations.JumpSetsProgramCounter := by
  unfold Obligations.JumpSetsProgramCounter
  exact ⟨encodedAs_F000 1 rfl rfl fun _ _ _ _ => rfl,
    fun s nnn => ⟨_, rfl, rfl, s.onlyChanged_setPc (addrWord nnn)⟩⟩

/-- Settles O17: a push with room followed by a write of `PC`, or the fault of a full stack. -/
theorem callPushesAndJumps : Obligations.CallPushesAndJumps := by
  unfold Obligations.CallPushesAndJumps
  refine ⟨encodedAs_F000 2 rfl rfl fun _ _ _ _ => rfl, fun s nnn h => ?_, fun s nnn h => ?_⟩
  · exact ⟨_, execCall_of_room nnn h, rfl, rfl, s.onlyChanged_setStack_setPc _ _⟩
  · rw [exec, execCall_of_full nnn h]
    exact s.faultsWith_raiseIn ..

/-- Settles O18: each skip is `State.skipIf` on its comparison. -/
theorem skipsCompareAndStepOver : Obligations.SkipsCompareAndStepOver := by
  unfold Obligations.SkipsCompareAndStepOver
  refine ⟨encodedAs_F000 3 rfl rfl fun _ _ _ _ => rfl, encodedAs_F000 4 rfl rfl fun _ _ _ _ => rfl,
    encodedAs_F00F 5 0 rfl rfl fun _ _ _ => rfl, encodedAs_F00F 9 0 rfl rfl fun _ _ _ => rfl,
    fun s x y nn => ⟨?_, ?_, ?_, ?_⟩⟩
  · exact ⟨_, rfl, s.onlyChanged_skipIf _, s.pc_skipIf_beq _ _⟩
  · exact ⟨_, rfl, s.onlyChanged_skipIf _, s.pc_skipIf_bne _ _⟩
  · exact ⟨_, rfl, s.onlyChanged_skipIf _, s.pc_skipIf_beq _ _⟩
  · exact ⟨_, rfl, s.onlyChanged_skipIf _, s.pc_skipIf_bne _ _⟩

/-- Settles O19: `JP V0` writes the offset target to `PC`, and that target is the exact sum. -/
theorem jumpWithOffsetAddsV0 : Obligations.JumpWithOffsetAddsV0 := by
  unfold Obligations.JumpWithOffsetAddsV0
  exact ⟨encodedAs_F000 0xB rfl rfl fun _ _ _ _ => rfl,
    fun s nnn => ⟨_, rfl, s.toNat_offsetTarget nnn, s.onlyChanged_setPc _⟩⟩

end Sys2Proof.Machine
end

section
/-! Registers and arithmetic (42_alu.md): what the register writes leave unchanged, each result and flag as
the arithmetic the rules give, and the six statements of the family. -/

namespace Sys2Proof.Machine

/-! ## What the register writes leave unchanged -/

/-- A frame may be stated with more fields than it needs. -/
theorem OnlyChanged.mono {l m : List Field} {s t : State} (h : OnlyChanged l s t) (hlm : l ⊆ m) :
    OnlyChanged m s t :=
  fun f hf => h f fun hl => hf (hlm hl)

theorem State.onlyChanged_setV (s : State) (x : Nib) (b : Byte) : OnlyChanged [.v] s (s.setV x b) := by
  intro f hf
  cases f <;> simp_all [Agree]

theorem State.onlyChanged_setVFlag (s : State) (x : Nib) (r : Byte) (f : Bool) :
    OnlyChanged [.v] s (s.setVFlag x r f) :=
  ((s.onlyChanged_setV x r).trans ((s.setV x r).onlyChanged_setV vf (flagByte f))).mono (by simp)

theorem State.onlyChanged_setVVFlag (s : State) (x y : Nib) (r : Byte) (f : Bool) :
    OnlyChanged [.v] s (s.setVVFlag x y r f) :=
  ((s.onlyChanged_setV x r).trans ((s.setV x r).onlyChanged_setVFlag y r f)).mono (by simp)

theorem State.onlyChanged_nextDraw (s : State) : OnlyChanged [.draws] s s.nextDraw := by
  intro f hf
  cases f <;> simp_all [Agree]

/-! ## An instruction that ends in a register write: its answer, its frame, every register after it -/

theorem State.next_setV (s : State) (x : Nib) (b : Byte) :
    ∃ t, (.next (s.setV x b) : Result) = .next t ∧ OnlyChanged [.v] s t ∧
      ∀ k, t.getV k = if k = x then b else s.getV k :=
  ⟨_, rfl, s.onlyChanged_setV x b, s.getV_setV x b⟩

theorem State.next_setVFlag (s : State) (x : Nib) (r : Byte) (f : Bool) :
    ∃ t, (.next (s.setVFlag x r f) : Result) = .next t ∧ OnlyChanged [.v] s t ∧
      ∀ k, t.getV k = if k = vf then flagByte f else if k = x then r else s.getV k :=
  ⟨_, rfl, s.onlyChanged_setVFlag x r f, s.getV_setVFlag x r f⟩

theorem State.next_setVVFlag (s : State) (x y : Nib) (r : Byte) (f : Bool) :
    ∃ t, (.next (s.setVVFlag x y r f) : Result) = .next t ∧ OnlyChanged [.v] s t ∧
      ∀ k, t.getV k = if k = vf then flagByte f else if k = x ∨ k = y then r else s.getV k :=
  ⟨_, rfl, s.onlyChanged_setVVFlag x y r f, s.getV_setVVFlag x y r f⟩

/-! ## Results and flags as arithmetic (42_alu.md R212) -/

theorem addResult_eq_mod (a b : Byte) : addResult a b = BitVec.ofNat 8 ((a.toNat + b.toNat) % 256) :=
  BitVec.eq_of_toNat_eq (by simp [addResult])

theorem subResult_eq_mod (a b : Byte) :
    subResult a b = BitVec.ofInt 8 (((a.toNat : Int) - (b.toNat : Int)) % 256) := by
  apply BitVec.eq_of_toInt_eq
  rw [subResult, BitVec.toInt_ofInt, BitVec.toInt_ofInt]
  exact (Int.emod_bmod _ 256).symm

theorem shrResult_eq_div (v : Byte) : shrResult v = BitVec.ofNat 8 (v.toNat / 2) := by
  have hv := v.isLt
  apply BitVec.eq_of_toNat_eq
  rw [shrResult, BitVec.toNat_ushiftRight, Nat.shiftRight_eq_div_pow, Nat.pow_one, BitVec.toNat_ofNat,
    Nat.mod_eq_of_lt (by omega)]

theorem shlResult_eq_mod (v : Byte) : shlResult v = BitVec.ofNat 8 (v.toNat * 2 % 256) :=
  BitVec.eq_of_toNat_eq (by simp [shlResult, Nat.shiftLeft_eq])

theorem flagByte_decide (p : Prop) [Decidable p] : flagByte (decide p) = if p then 1 else 0 := by
  simp only [flagByte, decide_eq_true_eq]

/-- A bit as a flag is the bit's value. -/
theorem flagByte_getLsbD (v : Byte) (n : Nat) :
    flagByte (v.getLsbD n) = BitVec.ofNat 8 (v.toNat / 2 ^ n % 2) := by
  rw [BitVec.getLsbD, Nat.testBit_eq_decide_div_mod_eq, flagByte_decide]
  obtain h | h := Nat.mod_two_eq_zero_or_one (v.toNat / 2 ^ n) <;> simp [h]

theorem flagByte_shrOut (v : Byte) : flagByte (shrOut v) = BitVec.ofNat 8 (v.toNat % 2) := by
  rw [shrOut, flagByte_getLsbD, Nat.pow_zero, Nat.div_one]

/-- Bit 7 is the top bit of a byte, so the quotient by 128 is 0 or 1 already. -/
theorem flagByte_shlOut (v : Byte) : flagByte (shlOut v) = BitVec.ofNat 8 (v.toNat / 128) := by
  have hv := v.isLt
  rw [shlOut, flagByte_getLsbD, show (2 : Nat) ^ 7 = 128 from rfl, Nat.mod_eq_of_lt (by omega)]

/-! ## The obligations -/

/-- Settles O20: both are one write of `V[X]`. -/
theorem loadAndAddImmediate : Obligations.LoadAndAddImmediate := by
  unfold Obligations.LoadAndAddImmediate
  refine ⟨encodedAs_F000 6 rfl rfl fun _ _ _ _ => rfl, encodedAs_F000 7 rfl rfl fun _ _ _ _ => rfl,
    fun s x nn => ?_⟩
  rw [← addResult_eq_mod]
  exact ⟨s.next_setV x nn, s.next_setV x _⟩

/-- Settles O21: all four are one write of `V[X]`. -/
theorem copyAndLogicWriteNoFlag : Obligations.CopyAndLogicWriteNoFlag := by
  unfold Obligations.CopyAndLogicWriteNoFlag
  exact ⟨encodedAs_F00F 8 0 rfl rfl fun _ _ _ => rfl, encodedAs_F00F 8 1 rfl rfl fun _ _ _ => rfl,
    encodedAs_F00F 8 2 rfl rfl fun _ _ _ => rfl, encodedAs_F00F 8 3 rfl rfl fun _ _ _ => rfl,
    fun s x y => ⟨s.next_setV x _, s.next_setV x _, s.next_setV x _, s.next_setV x _⟩⟩

/-- Settles O22: a write of the sum and then of the carry (42_alu.md R213). -/
theorem addRegistersSetsCarry : Obligations.AddRegistersSetsCarry := by
  unfold Obligations.AddRegistersSetsCarry
  refine ⟨encodedAs_F00F 8 4 rfl rfl fun _ _ _ => rfl, fun s x y => ?_⟩
  rw [← addResult_eq_mod, ← flagByte_decide]
  exact s.next_setVFlag x _ _

/-- Settles O23: a write of the difference and then of the no-borrow flag, with the operands in either
order (42_alu.md R213). -/
theorem subtractSetsNoBorrow : Obligations.SubtractSetsNoBorrow := by
  unfold Obligations.SubtractSetsNoBorrow
  refine ⟨encodedAs_F00F 8 5 rfl rfl fun _ _ _ => rfl, encodedAs_F00F 8 7 rfl rfl fun _ _ _ => rfl,
    fun s x y => ?_⟩
  simp only [← subResult_eq_mod, ← flagByte_decide]
  exact ⟨s.next_setVFlag x _ _, s.next_setVFlag x _ _⟩

/-- Settles O24: a write of both registers and then of the bit shifted out (42_alu.md R213). -/
theorem shiftsWriteBothRegisters : Obligations.ShiftsWriteBothRegisters := by
  unfold Obligations.ShiftsWriteBothRegisters
  refine ⟨encodedAs_F00F 8 6 rfl rfl fun _ _ _ => rfl, encodedAs_F00F 8 0xE rfl rfl fun _ _ _ => rfl,
    fun s x y => ?_⟩
  rw [← shrResult_eq_div, ← shlResult_eq_mod, ← flagByte_shrOut, ← flagByte_shlOut]
  exact ⟨s.next_setVVFlag x y _ _, s.next_setVVFlag x y _ _⟩

/-- Settles O25: one write of `V[X]`, with the next draw as the byte, and then the count of draws. -/
theorem randomByteIsMasked : Obligations.RandomByteIsMasked := by
  unfold Obligations.RandomByteIsMasked
  refine ⟨encodedAs_F000 0xC rfl rfl fun _ _ _ _ => rfl, fun s x nn => ?_⟩
  exact ⟨_, rfl, (s.onlyChanged_setV x _).trans (State.onlyChanged_nextDraw _), s.rand, s.getV_setV x _⟩

end Sys2Proof.Machine
end

section
/-! Index register and memory (43_index_memory.md): the new value of `I` as arithmetic, each access inside
memory and past it, what memory and the registers hold afterwards, and the four statements of the family. -/

namespace Sys2Proof.Machine

/-- A row of mask 0xF0FF is the opcode map's entry of all its nibbles but `X` (30_encoding.md R104). -/
theorem encodedAs_F0FF (k l m : Nib) {row : Nat} {bits : Word} {shadow : List Word} {mk : Fields → Instr}
    (hbits : bits = (k ++ 0#4 ++ l ++ m : Word))
    (hrow : (dispatchTable[row]?).map (fun r => (r.bits, r.mask)) = some (bits, 0xF0FF))
    (hmap : ∀ b : Nib, (k ++ b ++ l ++ m : Word) ∉ shadow →
      opcodeMap k b l m = some (mk ⟨b ++ l ++ m, l ++ m, m, b, l⟩)) :
    EncodedAs row bits 0xF0FF shadow mk := by
  refine encodedAs_of_opcodeMap row bits 0xF0FF shadow mk hrow fun a b c d hmask hshadow => ?_
  obtain ⟨rfl, rfl, rfl⟩ := (and_F0FF hbits).1 hmask
  exact hmap b hshadow

/-! ## What the writes leave unchanged -/

theorem State.onlyChanged_setI (s : State) (w : Word) : OnlyChanged [.i] s (s.setI w) := by
  intro f hf
  cases f <;> simp_all [Agree]

theorem State.onlyChanged_setMem (s : State) (m : Memory) : OnlyChanged [.mem] s (s.setMem m) := by
  intro f hf
  cases f <;> simp_all [Agree]

theorem State.onlyChanged_setVs (s : State) (bs : List Byte) : OnlyChanged [.v] s (s.setVs bs) := by
  intro f hf
  cases f <;> simp_all [Agree]

/-! ## The index register -/

/-- The index plus a register, modulo 65536 (43_index_memory.md R232). -/
theorem State.toNat_indexPlus (s : State) (x : Nib) :
    (s.indexPlus x).toNat = (s.i.toNat + (s.getV x).toNat) % 65536 := by
  rw [State.indexPlus, BitVec.toNat_add, toNat_byteWord]

/-- A mask of 0x0F keeps the low nibble. -/
theorem toNat_and_0x0F (b : Byte) : (b &&& 0x0F).toNat = b.toNat % 16 := by
  rw [BitVec.toNat_and]
  exact Nat.and_two_pow_sub_one_eq_mod b.toNat 4

/-- A font base of 12 bits and an offset of at most 75 need no wrap (43_index_memory.md R233). -/
theorem toNat_glyphAddr (base : Addr) (b : Byte) :
    (glyphAddr base b).toNat = base.toNat + 5 * (b.toNat % 16) := by
  have hbase := base.isLt
  rw [glyphAddr, BitVec.toNat_add, BitVec.toNat_mul, toNat_addrWord, toNat_byteWord, toNat_and_0x0F,
    show (5 : Word).toNat = 5 from rfl]
  omega

/-- After an access inside memory the index stands past it without a wrap (43_index_memory.md R235). -/
theorem State.toNat_indexPast {s : State} {x : Nib} (h : s.indexAddr + x.toNat < 4096) :
    (s.indexPast x).toNat = s.indexAddr + x.toNat + 1 := by
  rw [State.indexAddr] at h ⊢
  rw [State.indexPast, BitVec.toNat_add, BitVec.toNat_ofNat]
  omega

/-! ## Accesses inside memory and past it (43_index_memory.md R231) -/

theorem execLdB_of_inside {s : State} (x : Nib) (h : s.indexAddr + 2 < 4096) :
    execLdB x s = .next (s.setMem (s.mem.writeList s.indexAddr (decimalDigits (s.getV x)))) :=
  ((execLdB_cases s x).resolve_right fun hpast => by omega).2

theorem execLdB_of_past {s : State} (x : Nib) (h : s.indexAddr + 2 ≥ 4096) :
    execLdB x s = s.raiseIn .boundsData (encode (.ldB x)) (some (max s.indexAddr 4096)) :=
  ((execLdB_cases s x).resolve_left fun hinside => by omega).2

theorem execLdMemVx_of_inside {s : State} {x : Nib} (h : s.indexAddr + x.toNat < 4096) :
    execLdMemVx x s =
      .next ((s.setMem (s.mem.writeList s.indexAddr (s.getVs x))).setI (s.indexPast x)) :=
  ((execLdMemVx_cases s x).resolve_right fun hpast => by omega).2

theorem execLdMemVx_of_past {s : State} {x : Nib} (h : s.indexAddr + x.toNat ≥ 4096) :
    execLdMemVx x s = s.raiseIn .boundsData (encode (.ldMemVx x)) (some (max s.indexAddr 4096)) :=
  ((execLdMemVx_cases s x).resolve_left fun hinside => by omega).2

/-- The bytes at `I`, `I + 1`, ..., `I + X` (43_index_memory.md R236). -/
def State.bytesAtIndex (s : State) (x : Nib) : List Byte :=
  (List.range (x.toNat + 1)).map fun k => s.readByte (s.indexAddr + k)

theorem execLdVxMem_of_inside {s : State} {x : Nib} (h : s.indexAddr + x.toNat < 4096) :
    execLdVxMem x s = .next ((s.setVs (s.bytesAtIndex x)).setI (s.indexPast x)) :=
  ((execLdVxMem_cases s x).resolve_right fun hpast => by omega).2

theorem execLdVxMem_of_past {s : State} {x : Nib} (h : s.indexAddr + x.toNat ≥ 4096) :
    execLdVxMem x s = s.raiseIn .boundsData (encode (.ldVxMem x)) (some (max s.indexAddr 4096)) :=
  ((execLdVxMem_cases s x).resolve_left fun hinside => by omega).2

/-! ## What memory and the registers hold afterwards -/

/-- Memory after a store at the index that lies inside it. -/
theorem State.readByte_setMem_writeList {s : State} {vs : List Byte} (hwf : s.mem.wf)
    (h : s.indexAddr + vs.length ≤ 4096) (a : Nat) :
    (s.setMem (s.mem.writeList s.indexAddr vs)).readByte a = s.byteWithStored vs a :=
  Memory.read_writeList vs s.mem s.indexAddr a h hwf

/-- The three digits stored, address by address (43_index_memory.md R234). -/
theorem State.byteWithStored_decimalDigits (s : State) (b : Byte) (a : Nat) :
    s.byteWithStored (decimalDigits b) a =
      if a = s.indexAddr then BitVec.ofNat 8 (b.toNat / 100)
      else if a = s.indexAddr + 1 then BitVec.ofNat 8 (b.toNat / 10 % 10)
      else if a = s.indexAddr + 2 then BitVec.ofNat 8 (b.toNat % 10)
      else s.readByte a := by
  rw [State.byteWithStored, show s.i.toNat = s.indexAddr from rfl,
    show (decimalDigits b).length = 3 from rfl]
  split
  · next hin =>
    obtain ⟨k, rfl⟩ := Nat.exists_eq_add_of_le hin.1
    obtain rfl | rfl | rfl : k = 0 ∨ k = 1 ∨ k = 2 := by omega
    all_goals simp [decimalDigits]
  · next hout => rw [if_neg (by omega), if_neg (by omega), if_neg (by omega)]

/-- The registers stored, address by address (43_index_memory.md R235). -/
theorem State.byteWithStored_getVs (s : State) (x : Nib) (a : Nat) :
    s.byteWithStored (s.getVs x) a =
      if s.indexAddr ≤ a ∧ a ≤ s.indexAddr + x.toNat then s.getV (BitVec.ofNat 4 (a - s.indexAddr))
      else s.readByte a := by
  rw [State.byteWithStored, show s.i.toNat = s.indexAddr from rfl, State.length_getVs]
  split
  · next hin => rw [if_pos (by omega), s.getD_getVs x _ (by omega)]
  · next hout => rw [if_neg (by omega)]

/-- The registers after a load from the index (43_index_memory.md R236). -/
theorem State.getV_setVs_bytesAtIndex (s : State) (x k : Nib) :
    (s.setVs (s.bytesAtIndex x)).getV k =
      if k.toNat ≤ x.toNat then s.readByte (s.indexAddr + k.toNat) else s.getV k := by
  rw [State.getV_setVs, State.bytesAtIndex, List.length_map, List.length_range]
  by_cases hk : k.toNat ≤ x.toNat
  · rw [if_pos (by omega), if_pos hk, List.getD_eq_getElem?_getD, List.getElem?_map,
      List.getElem?_range (by omega)]
    rfl
  · rw [if_neg (by omega), if_neg hk]

/-! ## The obligations -/

/-- Settles O28: the store of three digits, read back byte by byte, or the fault of its range check. -/
theorem decimalDigitsStored : Obligations.DecimalDigitsStored := by
  unfold Obligations.DecimalDigitsStored
  refine ⟨encodedAs_F0FF 0xF 3 3 rfl rfl fun _ _ => rfl, fun s x hwf h => ?_, fun s x h => ?_⟩
  · refine ⟨_, execLdB_of_inside x h, s.onlyChanged_setMem _, fun a => ?_⟩
    rw [State.readByte_setMem_writeList hwf (by exact h), s.byteWithStored_decimalDigits]
  · rw [exec, execLdB_of_past x h]
    exact s.faultsWith_raiseIn ..

/-- Settles O29: the store of `V[0] .. V[X]`, read back byte by byte, with `I` past it, or the fault of its
range check. -/
theorem registersStoredToMemory : Obligations.RegistersStoredToMemory := by
  unfold Obligations.RegistersStoredToMemory
  refine ⟨encodedAs_F0FF 0xF 5 5 rfl rfl fun _ _ => rfl, fun s x hwf h => ?_, fun s x h => ?_⟩
  · refine ⟨_, execLdMemVx_of_inside h, (s.onlyChanged_setMem _).trans (State.onlyChanged_setI _ _),
      State.toNat_indexPast h, fun a => ?_⟩
    rw [State.setI_readByte, State.readByte_setMem_writeList hwf (by rw [s.length_getVs]; exact h),
      s.byteWithStored_getVs]
  · rw [exec, execLdMemVx_of_past h]
    exact s.faultsWith_raiseIn ..

/-- Settles O30: the load of `V[0] .. V[X]`, register by register, with `I` past it, or the fault of its
range check. -/
theorem registersLoadedFromMemory : Obligations.RegistersLoadedFromMemory := by
  unfold Obligations.RegistersLoadedFromMemory
  refine ⟨encodedAs_F0FF 0xF 6 5 rfl rfl fun _ _ => rfl, fun s x h => ?_, fun s x h => ?_⟩
  · exact ⟨_, execLdVxMem_of_inside h, (s.onlyChanged_setVs _).trans (State.onlyChanged_setI _ _),
      State.toNat_indexPast h, s.getV_setVs_bytesAtIndex x⟩
  · rw [exec, execLdVxMem_of_past h]
    exact s.faultsWith_raiseIn ..

/-- Settles O27: each is one write of `I`, and its value is the arithmetic of its rule. -/
theorem indexLoadsAndAdds : Obligations.IndexLoadsAndAdds := by
  unfold Obligations.IndexLoadsAndAdds
  refine ⟨encodedAs_F000 0xA rfl rfl fun _ _ _ _ => rfl, encodedAs_F0FF 0xF 1 0xE rfl rfl fun _ _ => rfl,
    encodedAs_F0FF 0xF 2 9 rfl rfl fun _ _ => rfl, fun s x nnn => ⟨?_, ?_, ?_⟩⟩
  · exact ⟨_, rfl, s.onlyChanged_setI _, toNat_addrWord nnn⟩
  · exact ⟨_, rfl, s.onlyChanged_setI _, s.toNat_indexPlus x⟩
  · exact ⟨_, rfl, s.onlyChanged_setI _, toNat_glyphAddr _ _⟩

end Sys2Proof.Machine
end

section
/-! Display (44_display.md): the machine after a completed draw, what every instruction leaves unchanged when
it completes, and the statements of the family. -/

namespace Sys2Proof.Machine

/-! ## What the display's operations leave unchanged -/

theorem State.onlyChanged_setFb (s : State) (fb : FrameBuf) : OnlyChanged [.fb] s (s.setFb fb) := by
  intro f hf
  cases f <;> simp_all [Agree]

theorem State.onlyChanged_countDisplay (s : State) : OnlyChanged [.dispEv] s s.countDisplay := by
  intro f hf
  cases f <;> simp_all [Agree]

theorem State.onlyChanged_setFb_countDisplay (s : State) (fb : FrameBuf) :
    OnlyChanged [.fb, .dispEv] s (s.setFb fb).countDisplay :=
  (s.onlyChanged_setFb fb).trans (State.onlyChanged_countDisplay _)

/-! ## A draw inside memory and past it (44_display.md R262) -/

/-- The framebuffer and the collision flag that DXYN draws from the bytes at `I`. -/
def State.drawn (s : State) (x y n : Nib) : FrameBuf × Bool :=
  drawRows s.params.drawEdge (s.startCol x) (s.startRow y)
    ((List.range n.toNat).map fun k => s.readByte (s.indexAddr + k)) (s.fb, false)

/-- The machine after DXYN completed. -/
def State.afterDraw (s : State) (x y n : Nib) : State :=
  ((s.setFb (s.drawn x y n).1).setV vf (flagByte (s.drawn x y n).2)).countDisplay

theorem execDrw_of_inside {s : State} {n : Nib} (x y : Nib) (h : n = 0 ∨ s.indexAddr + n.toNat ≤ 4096) :
    execDrw x y n s = .next (s.afterDraw x y n) := by
  refine ((execDrw_cases s x y n).resolve_right fun ⟨⟨hn, hpast⟩, _⟩ => ?_).2
  obtain hzero | hinside := h
  · exact hn (congrArg BitVec.toNat hzero)
  · omega

theorem execDrw_of_past {s : State} {n : Nib} (x y : Nib) (hn : n ≠ 0) (h : s.indexAddr + n.toNat > 4096) :
    execDrw x y n s = s.raiseIn .boundsData (encode (.drw x y n)) (some (max s.indexAddr 4096)) := by
  refine ((execDrw_cases s x y n).resolve_left fun ⟨hinside, _⟩ => ?_).2
  obtain hzero | hinside := hinside
  · exact hn (BitVec.eq_of_toNat_eq hzero)
  · omega

/-! ## The machine after a draw (44_display.md R262 to R266) -/

/-- The start cell lies on the grid and a sprite has at most 15 rows, so the draw loop's law applies. -/
theorem State.drawn_spec (s : State) (x y n : Nib) :
    (∀ cx < 64, ∀ cy < 32, FrameBuf.get (s.drawn x y n).1 cx cy =
      (s.fbAt cx cy ^^ s.spriteBit (s.startCol x) (s.startRow y) n.toNat cx cy)) ∧
    ((s.drawn x y n).2 = true ↔ s.Collides (s.startCol x) (s.startRow y) n.toNat) :=
  drawRows_spec s _ _ _ (Nat.mod_lt _ (by decide)) (Nat.mod_lt _ (by decide)) (by omega)

theorem State.onlyChanged_afterDraw (s : State) (x y n : Nib) :
    OnlyChanged [.v, .fb, .dispEv] s (s.afterDraw x y n) :=
  (((s.onlyChanged_setFb _).trans (State.onlyChanged_setV _ _ _)).trans
    (State.onlyChanged_countDisplay _)).mono (by simp)

theorem State.getV_afterDraw (s : State) (x y n k : Nib) :
    (s.afterDraw x y n).getV k = if k = vf then flagByte (s.drawn x y n).2 else s.getV k := by
  rw [State.afterDraw, State.countDisplay_getV, State.getV_setV, State.setFb_getV]

theorem State.getV_afterDraw_of_collides {s : State} {x y n : Nib}
    (h : s.Collides (s.startCol x) (s.startRow y) n.toNat) : (s.afterDraw x y n).getV vf = 1 := by
  rw [State.getV_afterDraw, if_pos rfl, (s.drawn_spec x y n).2.2 h]
  rfl

theorem State.getV_afterDraw_of_not_collides {s : State} {x y n : Nib}
    (h : ¬ s.Collides (s.startCol x) (s.startRow y) n.toNat) : (s.afterDraw x y n).getV vf = 0 := by
  rw [State.getV_afterDraw, if_pos rfl, Bool.eq_false_iff.2 fun hd => h ((s.drawn_spec x y n).2.1 hd)]
  rfl

/-! ## What a completed instruction writes -/

theorem State.onlyChanged_setDt (s : State) (b : Byte) : OnlyChanged [.dt] s (s.setDt b) := by
  intro f hf
  cases f <;> simp_all [Agree]

theorem State.onlyChanged_setSt (s : State) (b : Byte) : OnlyChanged [.st] s (s.setSt b) := by
  intro f hf
  cases f <;> simp_all [Agree]

theorem State.onlyChanged_setWait (s : State) (w : Option Nib) : OnlyChanged [.wait] s (s.setWait w) := by
  intro f hf
  cases f <;> simp_all [Agree]

theorem State.onlyChanged_refl (s : State) (l : List Field) : OnlyChanged l s s := by
  intro f _
  cases f <;> simp [Agree]

/-- The fields an instruction that completes may write, with `PC` already advanced (`exec_frame` says that
there are no others). -/
def writtenFields : Instr → List Field
  | .cls => [.fb, .dispEv]
  | .drw _ _ _ => [.v, .fb, .dispEv]
  | .sys _ => []
  | .ret => [.pc, .stack, .diag]
  | .call _ => [.pc, .stack]
  | .jp _ | .jpV0 _ | .seImm _ _ | .sneImm _ _ | .seReg _ _ | .sneReg _ _ | .skp _ | .sknp _ => [.pc]
  | .ldImm _ _ | .addImm _ _ | .ldReg _ _ | .orReg _ _ | .andReg _ _ | .xorReg _ _ | .addReg _ _
  | .sub _ _ | .shr _ _ | .subn _ _ | .shl _ _ | .ldVxDt _ => [.v]
  | .rnd _ _ => [.v, .draws]
  | .ldI _ | .addI _ | .ldF _ => [.i]
  | .ldB _ => [.mem]
  | .ldMemVx _ => [.mem, .i]
  | .ldVxMem _ => [.v, .i]
  | .ldVxK _ => [.wait]
  | .ldDtVx _ => [.dt]
  | .ldStVx _ => [.st]

/-- An instruction completes and changes only the fields it may write, or raises a fault on the state as it
was (60_exceptions.md R325). -/
theorem exec_frame (i : Instr) (s : State) :
    (∃ t, exec i s = .next t ∧ OnlyChanged (writtenFields i) s t) ∨
    (∃ c a, exec i s = s.raiseIn c (encode i) a) := by
  cases i with
  | cls => exact .inl ⟨_, rfl, s.onlyChanged_setFb_countDisplay _⟩
  | drw x y n =>
    obtain ⟨-, h⟩ | ⟨-, h⟩ := execDrw_cases s x y n
    · exact .inl ⟨_, h, s.onlyChanged_afterDraw x y n⟩
    · exact .inr ⟨_, _, h⟩
  | sys => exact .inl ⟨s, rfl, s.onlyChanged_refl _⟩
  | ret =>
    obtain ⟨l, a, -, h⟩ | ⟨-, -, h⟩ | ⟨-, -, h⟩ := execRet_cases s
    · exact .inl ⟨_, h, (s.onlyChanged_setStack_setPc l a).mono (by simp [writtenFields])⟩
    · exact .inr ⟨_, _, h⟩
    · exact .inl ⟨_, h, (s.onlyChanged_addDiag _ _ _).mono (by simp [writtenFields])⟩
  | call nnn =>
    obtain ⟨-, h⟩ | ⟨-, h⟩ := execCall_cases s nnn
    · exact .inl ⟨_, h, s.onlyChanged_setStack_setPc _ _⟩
    · exact .inr ⟨_, _, h⟩
  | jp | jpV0 => exact .inl ⟨_, rfl, s.onlyChanged_setPc _⟩
  | seImm | sneImm | seReg | sneReg | skp | sknp => exact .inl ⟨_, rfl, s.onlyChanged_skipIf _⟩
  | ldImm | addImm | ldReg | orReg | andReg | xorReg | ldVxDt =>
    exact .inl ⟨_, rfl, s.onlyChanged_setV _ _⟩
  | addReg | sub | subn => exact .inl ⟨_, rfl, s.onlyChanged_setVFlag _ _ _⟩
  | shr | shl => exact .inl ⟨_, rfl, s.onlyChanged_setVVFlag _ _ _ _⟩
  | rnd => exact .inl ⟨_, rfl, (s.onlyChanged_setV _ _).trans (State.onlyChanged_nextDraw _)⟩
  | ldI | addI | ldF => exact .inl ⟨_, rfl, s.onlyChanged_setI _⟩
  | ldB x =>
    obtain ⟨-, h⟩ | ⟨-, h⟩ := execLdB_cases s x
    · exact .inl ⟨_, h, s.onlyChanged_setMem _⟩
    · exact .inr ⟨_, _, h⟩
  | ldMemVx x =>
    obtain ⟨-, h⟩ | ⟨-, h⟩ := execLdMemVx_cases s x
    · exact .inl ⟨_, h, (s.onlyChanged_setMem _).trans (State.onlyChanged_setI _ _)⟩
    · exact .inr ⟨_, _, h⟩
  | ldVxMem x =>
    obtain ⟨-, h⟩ | ⟨-, h⟩ := execLdVxMem_cases s x
    · exact .inl ⟨_, h, (s.onlyChanged_setVs _).trans (State.onlyChanged_setI _ _)⟩
    · exact .inr ⟨_, _, h⟩
  | ldVxK => exact .inl ⟨_, rfl, s.onlyChanged_setWait _⟩
  | ldDtVx => exact .inl ⟨_, rfl, s.onlyChanged_setDt _⟩
  | ldStVx => exact .inl ⟨_, rfl, s.onlyChanged_setSt _⟩

/-- A field that an instruction changed is one it may write, or `EXEC` or `FAULT`. -/
theorem mem_writtenFields_of_not_agree {i : Instr} {s t : State} (h : exec i s = .next t) {f : Field}
    (hf : ¬ Agree s t f) : f ∈ writtenFields i ∨ f ∈ [Field.exec, .fault] := by
  obtain ⟨u, hu, hframe⟩ | ⟨c, a, hraise⟩ := exec_frame i s
  · cases hu.symm.trans h
    exact .inl (by_contra fun hmem => hf (hframe f hmem))
  · cases hraise.symm.trans h
    exact .inr (by_contra fun hmem => hf (s.onlyChanged_raise _ _ _ _ f hmem))

/-! ## The writers of the display (44_display.md R260) -/

theorem display_of_mem_writtenFields {i : Instr}
    (h : Field.fb ∈ writtenFields i ∨ Field.dispEv ∈ writtenFields i) :
    i = .cls ∨ ∃ x y n, i = .drw x y n := by
  cases i with
  | cls => exact .inl rfl
  | drw x y n => exact .inr ⟨x, y, n, rfl⟩
  | _ => simp [writtenFields] at h

theorem dispEv_of_exec_drw {s t : State} {x y n : Nib} (h : exec (.drw x y n) s = .next t)
    (hexec : t.exec = .running) : t.dispEv = s.dispEv + 1 := by
  obtain ⟨-, hdraw⟩ | ⟨-, hraise⟩ := execDrw_cases s x y n
  · cases hdraw.symm.trans h
    rfl
  · cases hraise.symm.trans h
    cases hexec

/-! ## The obligations -/

/-- Settles O32: a draw inside memory answers `State.afterDraw`, whose cells and flag are the draw loop's law;
past memory it is the fault of the range check. -/
theorem drawXorsSprite : Obligations.DrawXorsSprite := by
  unfold Obligations.DrawXorsSprite
  refine ⟨encodedAs_F000 0xD rfl rfl fun _ _ _ _ => rfl, rfl, fun s x y n h => ?_, fun s x y n hn h => ?_⟩
  · exact ⟨_, execDrw_of_inside x y h, s.onlyChanged_afterDraw x y n, rfl,
      fun k hk => (s.getV_afterDraw x y n k).trans (if_neg hk), State.getV_afterDraw_of_collides,
      State.getV_afterDraw_of_not_collides, (s.drawn_spec x y n).1⟩
  · rw [exec, execDrw_of_past x y hn h]
    exact s.faultsWith_raiseIn ..

/-- Settles O31: `CLS` is a write of the clear framebuffer and one count. -/
theorem clearScreenClearsEveryCell : Obligations.ClearScreenClearsEveryCell := by
  unfold Obligations.ClearScreenClearsEveryCell
  exact ⟨encodedAs_FFFF 0x0 0x0 0xE 0x0 rfl rfl rfl,
    fun s => ⟨_, rfl, s.onlyChanged_setFb_countDisplay _, rfl, FrameBuf.get_clear⟩⟩

/-- Settles O53: the two display fields are among the written fields of `CLS` and `DRW` only; a `DRW` that
leaves the machine in `Running` raised no fault, and so counted. -/
theorem onlyDisplayWritesFramebuffer : Obligations.OnlyDisplayWritesFramebuffer := by
  unfold Obligations.OnlyDisplayWritesFramebuffer
  refine fun i s t h => ⟨fun hne => display_of_mem_writtenFields ?_, fun _ hexec hi => ?_⟩
  · exact hne.imp (fun hfb => (mem_writtenFields_of_not_agree h hfb).resolve_right (by decide))
      (fun hev => (mem_writtenFields_of_not_agree h hev).resolve_right (by decide))
  · obtain rfl | ⟨x, y, n, rfl⟩ := hi
    · cases h
      rfl
    · exact dispEv_of_exec_drw h hexec

end Sys2Proof.Machine
end

section
/-! Timers and keys (45_timer_input.md): the sound output, what a skip on the latch does to `PC`, what a key
wait lets through, and the three statements of the family. -/

namespace Sys2Proof.Machine

/-! ## The sound output (10_state.md R48) -/

theorem State.soundOn_iff (s : State) : s.soundOn = true ↔ s.st ≠ 0 := bne_iff_ne

/-! ## Skips on the latch (45_timer_input.md R293, R294) -/

theorem State.keyPressed_iff (s : State) (b : Byte) :
    s.keyPressed b = true ↔ b.toNat ≤ 15 ∧ s.key (BitVec.ofNat 4 b.toNat) = true := by
  rw [State.keyPressed_eq, Bool.and_eq_true, decide_eq_true_iff]

theorem State.pc_skipIf_keyPressed (s : State) (b : Byte) :
    (s.skipIf (s.keyPressed b)).pc =
      if b.toNat ≤ 15 ∧ s.key (BitVec.ofNat 4 b.toNat) = true then s.pc + 2 else s.pc := by
  simp only [State.skipIf_eq, State.setPc_pc, State.keyPressed_iff]

theorem State.pc_skipIf_not_keyPressed (s : State) (b : Byte) :
    (s.skipIf (!s.keyPressed b)).pc =
      if b.toNat ≤ 15 ∧ s.key (BitVec.ofNat 4 b.toNat) = true then s.pc else s.pc + 2 := by
  simp only [State.skipIf_eq, State.setPc_pc, Bool.not_eq_true', ← Bool.not_eq_true,
    State.keyPressed_iff, ite_not]

/-! ## A key wait (45_timer_input.md R295, R296) -/

/-- In a key wait no Cycle answers a next state (40_execution_loop.md R147). -/
theorem cycle_ne_next_of_wait {s : State} {x : Nib} (h : s.wait = some x) (t : State) :
    cycle s ≠ .next t := by
  intro hcycle
  obtain ⟨⟨-, hnone⟩, -⟩ := cycle_cases s t hcycle
  cases h.symm.trans hnone

/-- A press of a key that is already pressed moves the latch only, so a key wait stands. -/
theorem State.wait_keyEvent_of_held (s : State) {k : Nib} (h : s.key k = true) :
    (s.keyEvent k true).wait = s.wait := by
  obtain ⟨x, -, -, hreleased, -⟩ | ⟨-, heq⟩ := s.keyEvent_cases k true
  · cases h.symm.trans hreleased
  · rw [heq, State.wait_latch]

/-! ## The obligations -/

/-- Settles O34: each is one write, of `V[X]`, `DT` or `ST`, and the sound output reads the new `ST`. -/
theorem timersReadAndSet : Obligations.TimersReadAndSet := by
  unfold Obligations.TimersReadAndSet
  refine ⟨encodedAs_F0FF 0xF 0 7 rfl rfl fun _ _ => rfl, encodedAs_F0FF 0xF 1 5 rfl rfl fun _ _ => rfl,
    encodedAs_F0FF 0xF 1 8 rfl rfl fun _ _ => rfl, fun s x => ⟨s.next_setV x _, ?_, ?_⟩⟩
  · exact ⟨_, rfl, s.onlyChanged_setDt _, rfl⟩
  · exact ⟨_, rfl, s.onlyChanged_setSt _, rfl, State.soundOn_iff _⟩

/-- Settles O35: both are `State.skipIf` on whether the byte names a pressed key. -/
theorem keySkipsReadLatch : Obligations.KeySkipsReadLatch := by
  unfold Obligations.KeySkipsReadLatch
  refine ⟨encodedAs_F0FF 0xE 9 0xE rfl rfl fun _ _ => rfl,
    encodedAs_F0FF 0xE 0xA 1 rfl rfl fun _ _ => rfl, fun s x => ⟨?_, ?_⟩⟩
  · exact ⟨_, rfl, s.onlyChanged_skipIf _, s.pc_skipIf_keyPressed _⟩
  · exact ⟨_, rfl, s.onlyChanged_skipIf _, s.pc_skipIf_not_keyPressed _⟩

/-- Settles O36: the instruction is one write of `WAIT`, which disables Cycle; a held key is no fresh
press. -/
theorem keyWaitBegins : Obligations.KeyWaitBegins := by
  unfold Obligations.KeyWaitBegins
  refine ⟨encodedAs_F0FF 0xF 0 0xA rfl rfl fun _ _ => rfl, fun s x => ?_⟩
  exact ⟨s.setWait (some x), rfl, s.onlyChanged_setWait _, rfl, cycle_ne_next_of_wait rfl,
    fun k hheld => ⟨_, rfl, (s.setWait (some x)).wait_keyEvent_of_held hheld⟩⟩

end Sys2Proof.Machine
end

section
/-! Events and faults (60_exceptions.md): what a Key event writes, what each event does to `EXEC`, and the
five statements of the family. -/

namespace Sys2Proof.Machine

/-! ## What the events' operations leave unchanged -/

theorem State.onlyChanged_setKey (s : State) (k : Nib) (p : Bool) : OnlyChanged [.keys] s (s.setKey k p) := by
  intro f hf
  cases f <;> simp_all [Agree]

theorem State.onlyChanged_setLast (s : State) (l : Option Nib) : OnlyChanged [.last] s (s.setLast l) := by
  intro f hf
  cases f <;> simp_all [Agree]

theorem State.onlyChanged_setExec (s : State) (e : RunState) : OnlyChanged [.exec] s (s.setExec e) := by
  intro f hf
  cases f <;> simp_all [Agree]

theorem State.onlyChanged_setTimers (s : State) (n : Nat) (b c : Byte) :
    OnlyChanged [.tacc, .dt, .st] s (s.setTimers n b c) := by
  intro f hf
  cases f <;> simp_all [Agree]

theorem State.onlyChanged_latch (s : State) (k : Nib) (p : Bool) :
    OnlyChanged [.keys, .last] s (s.latch k p) := by
  rw [s.latch_eq k p]
  exact (s.onlyChanged_setKey k p).trans (State.onlyChanged_setLast _ _)

/-! ## A Key event (60_exceptions.md R350, 45_timer_input.md R296) -/

theorem State.onlyChanged_keyEvent (s : State) (k : Nib) (p : Bool) :
    OnlyChanged [.v, .keys, .last, .wait] s (s.keyEvent k p) := by
  obtain ⟨x, -, -, -, h⟩ | ⟨-, h⟩ := s.keyEvent_cases k p
  · rw [h]
    exact (((s.onlyChanged_latch k p).trans (State.onlyChanged_setV _ _ _)).trans
      (State.onlyChanged_setWait _ _)).mono (by simp)
  · rw [h]
    exact (s.onlyChanged_latch k p).mono (by simp)

@[simp] theorem State.getV_latch (s : State) (k : Nib) (p : Bool) (j : Nib) :
    (s.latch k p).getV j = s.getV j :=
  s.onlyChanged_latch k p .v (by decide) j

/-- The end of a key wait touches neither the latch nor `LAST`. -/
theorem State.key_keyEvent (s : State) (k : Nib) (p : Bool) (j : Nib) :
    (s.keyEvent k p).key j = if j = k then p else s.key j := by
  obtain ⟨x, -, -, -, h⟩ | ⟨-, h⟩ := s.keyEvent_cases k p
  · rw [h, State.setWait_key, State.setV_key, State.key_latch]
  · rw [h, State.key_latch]

/-- `LAST` in terms of the keys the event leaves pressed (60_exceptions.md R351). -/
theorem State.last_keyEvent (s : State) (k : Nib) (p : Bool) :
    (s.keyEvent k p).last =
      if p then some k else if ∀ j, (s.keyEvent k p).key j = false then none else s.last := by
  have hlatch : (s.keyEvent k p).last = (s.latch k p).last := by
    obtain ⟨x, -, -, -, h⟩ | ⟨-, h⟩ := s.keyEvent_cases k p
    · rw [h, State.setWait_last, State.setV_last]
    · rw [h]
  simp only [hlatch, State.last_latch, State.allReleased_iff, State.key_setKey, State.key_keyEvent]

/-- On a fresh press the waiting register, if there is one, gets the key's number. -/
theorem State.getV_keyEvent_of_fresh (s : State) {k : Nib} (h : s.key k = false) (j : Nib) :
    (s.keyEvent k true).getV j = if s.wait = some j then k.zeroExtend 8 else s.getV j := by
  obtain ⟨x, hwait, -, -, heq⟩ | ⟨hwait | hheld, heq⟩ := s.keyEvent_cases k true
  · rw [heq, State.setWait_getV, State.getV_setV, State.getV_latch, hwait]
    simp only [Option.some.injEq, eq_comm]
  · rw [heq, State.getV_latch, hwait, if_neg (Option.some_ne_none j).symm]
  · exact absurd ⟨rfl, h⟩ hheld

/-- A release, or a press of a key already pressed, moves the latch only. -/
theorem State.keyEvent_of_not_fresh (s : State) {k : Nib} {p : Bool}
    (h : ¬(p = true ∧ s.key k = false)) : s.keyEvent k p = s.latch k p := by
  obtain ⟨x, -, hpress, hreleased, -⟩ | ⟨-, heq⟩ := s.keyEvent_cases k p
  · exact absurd ⟨hpress, hreleased⟩ h
  · exact heq

/-! ## What an event does to `EXEC` -/

/-- An event keeps `EXEC`, or it is a Cycle that faults, a Stop that halts, or a Reset or a Load, which
restart the machine (60_exceptions.md R321, R362, 70_reset_and_hazards.md R380, R385). -/
theorem deliver_exec_cases {e : Event} {s t : State} (h : deliver e s = .next t) :
    t.exec = s.exec ∨ (e = .cycle ∧ t.exec = .faulted) ∨ (e = .stop ∧ t.exec = .halted) ∨
      ((e = .reset ∨ ∃ img, e = .load img) ∧ t.exec = .running) := by
  cases e with
  | cycle =>
    exact (cycle_completes_or_faults h).imp And.left fun ⟨hexec, _⟩ => .inl ⟨rfl, hexec⟩
  | time dt => cases h; exact .inl (s.exec_elapse dt)
  | key k p => cases h; exact .inl (s.exec_keyEvent k p)
  | stop =>
    cases h
    rw [s.exec_stop]
    split
    · exact .inr (.inr (.inl ⟨rfl, rfl⟩))
    · exact .inl rfl
  | reset => cases h; exact .inr (.inr (.inr ⟨.inl rfl, rfl⟩))
  | load img =>
    rw [eq_loadImage_of_loadEvent_next h]
    exact .inr (.inr (.inr ⟨.inr ⟨img, rfl⟩, s.exec_loadImage img⟩))

/-- Only a Cycle leads into `Faulted` (60_exceptions.md R321). -/
theorem eq_cycle_of_faulted {e : Event} {s t : State} (hs : s.exec ≠ .faulted)
    (h : deliver e s = .next t) (ht : t.exec = .faulted) : e = .cycle := by
  obtain hexec | ⟨he, -⟩ | ⟨-, hexec⟩ | ⟨-, hexec⟩ := deliver_exec_cases h
  · exact absurd (hexec.symm.trans ht) hs
  · exact he
  · cases hexec.symm.trans ht
  · cases hexec.symm.trans ht

/-- Only a Stop leads into `Halted` (60_exceptions.md R362). -/
theorem eq_stop_of_halted {e : Event} {s t : State} (hs : s.exec ≠ .halted)
    (h : deliver e s = .next t) (ht : t.exec = .halted) : e = .stop := by
  obtain hexec | ⟨-, hexec⟩ | ⟨he, -⟩ | ⟨-, hexec⟩ := deliver_exec_cases h
  · exact absurd (hexec.symm.trans ht) hs
  · cases hexec.symm.trans ht
  · exact he
  · cases hexec.symm.trans ht

/-! ## The obligations -/

/-- Settles O37: every Key event is the latch; a fresh press in a key wait also writes the waiting register
and `WAIT`. -/
theorem keyEventUpdatesLatchAndEndsWait : Obligations.KeyEventUpdatesLatchAndEndsWait := by
  unfold Obligations.KeyEventUpdatesLatchAndEndsWait
  refine fun s k p => ⟨s.keyEvent k p, rfl, s.onlyChanged_keyEvent k p, s.key_keyEvent k p, ?_, ?_, ?_,
    ?_, ?_⟩
  · exact fun hpress => by rw [s.last_keyEvent, if_pos hpress]
  · exact fun hrelease hnone => by rw [s.last_keyEvent, if_neg (by simp [hrelease]), if_pos hnone]
  · rintro hrelease ⟨j, hj⟩
    rw [s.last_keyEvent, if_neg (by simp [hrelease]), if_neg fun hnone => by simp [hnone j] at hj]
  · rintro ⟨rfl, hfresh⟩
    exact ⟨s.wait_keyEvent_of_fresh hfresh, s.getV_keyEvent_of_fresh hfresh⟩
  · intro h
    rw [s.keyEvent_of_not_fresh h]
    exact ⟨s.wait_latch k p, s.getV_latch k p⟩

/-- Settles O46: an instruction that leaves `Running` raised its own cause, since one that completes keeps
`EXEC`; of the events only a Cycle can enter `Faulted`. -/
theorem onlyCheckedInstructionsFault : Obligations.OnlyCheckedInstructionsFault := by
  unfold Obligations.OnlyCheckedInstructionsFault
  refine ⟨fun i s t hrun h hleft => ?_, fun e s t => eq_cycle_of_faulted⟩
  obtain ⟨u, hu, hexec, -⟩ | ⟨c, a, hown, haddr, hraise⟩ := exec_cases i s
  · cases hu.symm.trans h
    exact absurd (hexec.trans hrun) hleft
  · cases hraise.symm.trans h
    exact ⟨_, rfl, hown, haddr⟩

/-- Settles O38: in `Running` a Stop is the two writes of `EXEC` and `WAIT`, elsewhere it does nothing. -/
theorem stopHaltsAndCancelsWait : Obligations.StopHaltsAndCancelsWait := by
  unfold Obligations.StopHaltsAndCancelsWait
  refine fun s => ⟨fun hrun => ⟨s.stop, rfl, ?_⟩, fun hne => congrArg Host.Outcome.next (s.stop_frozen hne),
    fun e t => eq_stop_of_halted, ⟨s.toReset, rfl, rfl⟩⟩
  rw [s.stop_running hrun]
  exact ⟨rfl, rfl, (s.onlyChanged_setExec _).trans (State.onlyChanged_setWait _ _)⟩

/-- Settles O42: in `Running` a Time event is one write of `TACC`, `DT` and `ST`, elsewhere it does
nothing. -/
theorem timeDecrementsTimers : Obligations.TimeDecrementsTimers := by
  unfold Obligations.TimeDecrementsTimers
  refine fun s dt => ⟨fun hrun => ⟨s.elapse dt, rfl, ?_⟩,
    fun hne => congrArg Host.Outcome.next (s.elapse_frozen dt hne)⟩
  rw [s.elapse_running dt hrun]
  exact ⟨s.onlyChanged_setTimers _ _ _, rfl, toNat_timerMinus _ _, toNat_timerMinus _ _⟩

/-- Settles O47: a faulted machine has no Cycle, Time and Stop do nothing to it, and a Key event writes
neither `EXEC` nor `FAULT`. -/
theorem faultStaysUntilReset : Obligations.FaultStaysUntilReset := by
  unfold Obligations.FaultStaysUntilReset
  intro s t e hfaulted h
  have hne : s.exec ≠ .running := by simp [hfaulted]
  cases e with
  | reset => exact .inl rfl
  | load img => exact .inr (.inl ⟨img, rfl⟩)
  | cycle => exact absurd (exec_running_of_cycle_next h) hne
  | time dt =>
    cases h
    rw [s.elapse_frozen dt hne]
    exact .inr (.inr ⟨hfaulted, rfl⟩)
  | key k p =>
    cases h
    exact .inr (.inr ⟨(s.exec_keyEvent k p).trans hfaulted, s.onlyChanged_keyEvent k p .fault (by decide)⟩)
  | stop =>
    cases h
    rw [s.stop_frozen hne]
    exact .inr (.inr ⟨hfaulted, rfl⟩)

end Sys2Proof.Machine
end

section
/-! Load (70_reset_and_hazards.md R383, R385): what the font preload and then the image leave in memory and
in the registers. -/

namespace Sys2Proof.Machine

/-! ## The registers: a Load writes nothing but memory after its reset -/

/-- Memory is not among the fields that `State.RegistersAtReset` speaks of. -/
theorem State.registersAtReset_setMem {s : State} (m : Memory) (h : s.RegistersAtReset) :
    (s.setMem m).RegistersAtReset := h

theorem State.registersAtReset_preloadFont {s : State} (h : s.RegistersAtReset) :
    s.preloadFont.RegistersAtReset := by
  rw [State.preloadFont_eq]
  exact State.registersAtReset_setMem _ h

theorem State.registersAtReset_loadImage (s : State) (img : List Byte) :
    (s.loadImage img).RegistersAtReset :=
  State.registersAtReset_setMem _ (State.registersAtReset_preloadFont s.registersAtReset_toReset)

/-! ## Memory: the font over reset memory, and the image over both -/

/-- A font that ends below 0x200 ends inside memory. -/
theorem fontBase_add_length_le_memSize {p : Params} (h : p.FontFits) :
    p.fontBase.toNat + p.fontGlyphs.toList.length ≤ Config.memSize := by
  have h : p.fontBase.toNat + 79 < 0x200 := h
  simp only [Vector.length_toList, Config.memSize_eq]
  omega

/-- An image of at most 3584 bytes, loaded at 0x200, ends inside memory. -/
theorem loadBase_add_length_le_memSize {img : List Byte} (h : img.length ≤ 3584) :
    Config.loadBase + img.length ≤ Config.memSize := by
  simp only [Config.loadBase_eq, Config.memSize_eq]
  omega

theorem State.mem_preloadFont_wf {s : State} (hwf : s.mem.wf)
    (hfont : s.params.fontPreload = true → s.params.FontFits) : s.preloadFont.mem.wf := by
  rw [State.preloadFont_eq, State.setMem_mem]
  split
  · next hpre => exact Memory.writeList_wf _ _ _ (fontBase_add_length_le_memSize (hfont hpre)) hwf
  · exact hwf

theorem State.readByte_preloadFont {s : State} (hwf : s.mem.wf)
    (hfont : s.params.fontPreload = true → s.params.FontFits) (a : Nat) :
    s.preloadFont.readByte a =
      if s.params.fontPreload = true ∧ s.params.fontBase.toNat ≤ a ∧
          a < s.params.fontBase.toNat + 80 then
        s.params.fontGlyphs.toList.getD (a - s.params.fontBase.toNat) 0
      else s.readByte a := by
  rw [State.preloadFont_eq, State.readByte, State.setMem_mem]
  by_cases hpre : s.params.fontPreload = true
  · rw [if_pos hpre, Memory.read_writeList _ _ _ _ (fontBase_add_length_le_memSize (hfont hpre)) hwf,
      Vector.length_toList]
    simp only [hpre, true_and, State.readByte]
  · rw [if_neg hpre, if_neg fun h => hpre h.1, State.readByte]

section Loaded

variable {s : State} {img : List Byte} (hlen : img.length ≤ 3584)
  (hfont : s.params.fontPreload = true → s.params.FontFits)

include hlen hfont

theorem State.mem_loadImage_wf : (s.loadImage img).mem.wf :=
  Memory.writeList_wf _ _ _ (loadBase_add_length_le_memSize hlen)
    (State.mem_preloadFont_wf (s := s.toReset) Memory.reset_wf hfont)

/-- The image is written last, over the font, which is written over zeros. -/
theorem State.readByte_loadImage (a : Nat) :
    (s.loadImage img).readByte a =
      if 0x200 ≤ a ∧ a < 0x200 + img.length then img.getD (a - 0x200) 0
      else s.toReset.preloadFont.readByte a :=
  Memory.read_writeList _ _ _ _ (loadBase_add_length_le_memSize hlen)
    (State.mem_preloadFont_wf (s := s.toReset) Memory.reset_wf hfont)

end Loaded

/-! ## The obligation -/

/-- Settles O40: a Load that is no error is a reset followed by two writes of memory, the font's and then
the image's. -/
theorem loadWritesFontAndImage : Obligations.LoadWritesFontAndImage := by
  unfold Obligations.LoadWritesFontAndImage
  intro s img hpos hlen hfont
  refine ⟨s.loadImage img, loadEvent_ok s img hpos hlen hfont, s.registersAtReset_loadImage img,
    State.mem_loadImage_wf hlen hfont, fun a => ?_⟩
  rw [State.readByte_loadImage hlen hfont,
    State.readByte_preloadFont (s := s.toReset) Memory.reset_wf hfont, s.readByte_toReset]
  rfl

end Sys2Proof.Machine
end

section
/-! Encoder and decoder as inverses (30_encoding.md sections 1 to 3): the opcode map on every instruction's
word, the instruction of every entry of the map, and the words without an entry. -/

namespace Sys2Proof

/-! ## From the instruction to its word and back -/

theorem decodeWord_of_opcodeMap {a b c d : Nib} {i : Instr} (h : opcodeMap a b c d = some i) :
    decodeWord (a ++ b ++ c ++ d) = .ok i := by
  rw [decodeWord_nibbles, h]

/-- Shape `A`: the map's entry for the opcode nibble decides. -/
theorem decodeWord_encA {op : Nib} {mk : Addr → Instr}
    (hmap : ∀ b c d : Nib, opcodeMap op b c d = some (mk (b ++ c ++ d))) (nnn : Addr) :
    decodeWord (encA op nnn) = .ok (mk nnn) := by
  induction nnn using Addr.forall_nibbles with
  | h b c d => rw [encA_nibbles, decodeWord_of_opcodeMap (hmap b c d)]

/-- Shape `XNN`. -/
theorem decodeWord_encXNN {op x : Nib} {mk : Byte → Instr}
    (hmap : ∀ c d : Nib, opcodeMap op x c d = some (mk (c ++ d))) (nn : Byte) :
    decodeWord (encXNN op x nn) = .ok (mk nn) := by
  induction nn using Byte.forall_nibbles with
  | h c d => rw [encXNN_nibbles, decodeWord_of_opcodeMap (hmap c d)]

/-- Shape `X`, with the sub-op's two nibbles. -/
theorem decodeWord_encX (c d : Nib) {op x : Nib} {i : Instr} (hmap : opcodeMap op x c d = some i) :
    decodeWord (encX op x (c ++ d)) = .ok i := by
  rw [encX_nibbles, decodeWord_of_opcodeMap hmap]

/-- `SYS` has a word of its own unless its operand is that of `CLS` or `RET` (30_encoding.md R106). -/
theorem wellFormed_sys_iff (b c d : Nib) : (Instr.sys (b ++ c ++ d)).WellFormed = true ↔
    ¬(b = 0x0#4 ∧ c = 0xE#4 ∧ d = 0x0#4) ∧ ¬(b = 0x0#4 ∧ c = 0xE#4 ∧ d = 0xE#4) := by
  change (b ++ c ++ d != (0x0#4 ++ 0xE#4 ++ 0x0#4 : Addr) &&
    b ++ c ++ d != (0x0#4 ++ 0xE#4 ++ 0xE#4 : Addr)) = true ↔ _
  simp only [Bool.and_eq_true, bne_iff_ne, ne_eq, append_eq_append, and_assoc]

theorem decodeWord_encA_sys {nnn : Addr} (h : (Instr.sys nnn).WellFormed = true) :
    decodeWord (encA 0 nnn) = .ok (.sys nnn) := by
  induction nnn using Addr.forall_nibbles with
  | h b c d =>
    obtain ⟨hcls, hret⟩ := (wellFormed_sys_iff b c d).1 h
    rw [encA_nibbles]
    exact decodeWord_of_opcodeMap ((if_neg hcls).trans (if_neg hret))

/-- Every well-formed instruction is what its word decodes to, one entry of the opcode map each. -/
theorem decodeWord_encode {i : Instr} (h : i.WellFormed = true) : decodeWord (encode i) = .ok i := by
  cases i with
  | cls => exact decodeWord_of_opcodeMap (a := 0) (b := 0) (c := 0xE) (d := 0) rfl
  | ret => exact decodeWord_of_opcodeMap (a := 0) (b := 0) (c := 0xE) (d := 0xE) rfl
  | sys nnn => exact decodeWord_encA_sys h
  | jp | call | ldI | jpV0 => exact decodeWord_encA (fun _ _ _ => rfl) _
  | seImm | sneImm | ldImm | addImm | rnd => exact decodeWord_encXNN (fun _ _ => rfl) _
  | seReg | ldReg | orReg | andReg | xorReg | addReg | sub | shr | subn | shl | sneReg | drw =>
    exact decodeWord_of_opcodeMap rfl
  | skp => exact decodeWord_encX 0x9 0xE rfl
  | sknp => exact decodeWord_encX 0xA 0x1 rfl
  | ldVxDt => exact decodeWord_encX 0x0 0x7 rfl
  | ldVxK => exact decodeWord_encX 0x0 0xA rfl
  | ldDtVx => exact decodeWord_encX 0x1 0x5 rfl
  | ldStVx => exact decodeWord_encX 0x1 0x8 rfl
  | addI => exact decodeWord_encX 0x1 0xE rfl
  | ldF => exact decodeWord_encX 0x2 0x9 rfl
  | ldB => exact decodeWord_encX 0x3 0x3 rfl
  | ldMemVx => exact decodeWord_encX 0x5 0x5 rfl
  | ldVxMem => exact decodeWord_encX 0x6 0x5 rfl

/-- The decoder over bytes reads the word of the first two and leaves the rest. -/
theorem decode_bytesOfWord_append {w : Word} {i : Instr} (h : decodeWord w = .ok i) (rest : List Byte) :
    decode (bytesOfWord w ++ rest) = .ok (i, rest) := by
  simp only [bytesOfWord, List.cons_append, List.nil_append, decode, wordOfBytes_halves, h]

/-- Settles O5: the opcode map has each instruction at the nibbles of its word, and a word is its two
bytes. -/
theorem encodeThenDecode : Obligations.EncodeThenDecode := by
  unfold Obligations.EncodeThenDecode
  exact fun i h => ⟨decodeWord_encode h, decode_bytesOfWord_append (decodeWord_encode h)⟩

/-! ## From the word to the instruction and back -/

/-- The instruction is well formed and its word is `w`. -/
def Instr.HasWord (i : Instr) (w : Word) : Prop := i.WellFormed = true ∧ encode i = w

/-- First nibble 0: `CLS`, `RET`, and `SYS` with every other operand. -/
theorem hasWord_of_opcodeMap_0 {b c d : Nib} {i : Instr} (h : opcodeMap 0x0 b c d = some i) :
    i.HasWord (0x0#4 ++ b ++ c ++ d) := by
  simp only [opcodeMap, if_true] at h
  split_ifs at h with hcls hret
  · obtain ⟨rfl, rfl, rfl⟩ := hcls
    cases h
    exact ⟨rfl, rfl⟩
  · obtain ⟨rfl, rfl, rfl⟩ := hret
    cases h
    exact ⟨rfl, rfl⟩
  · cases h
    exact ⟨(wellFormed_sys_iff b c d).2 ⟨hcls, hret⟩, encA_nibbles ..⟩

/-- An entry of the map under a condition, before the entries `e`. -/
theorem hasWord_of_ite {p : Prop} [Decidable p] {i x : Instr} {e : Option Instr} {w : Word}
    (h : (if p then some x else e) = some i) (hx : p → x.HasWord w) (he : e = some i → i.HasWord w) :
    i.HasWord w := by
  by_cases hp : p
  · rw [if_pos hp] at h
    cases h
    exact hx hp
  · rw [if_neg hp] at h
    exact he h

/-- First nibble 8: the last nibble is the sub-op, and shape `XY` is the four nibbles. -/
theorem hasWord_of_opcodeMap_8 {b c d : Nib} {i : Instr} (h : opcodeMap 0x8 b c d = some i) :
    i.HasWord (0x8#4 ++ b ++ c ++ d) := by
  change ite (d = _) _ _ = _ at h
  iterate 9 refine hasWord_of_ite h (by rintro rfl; exact ⟨rfl, rfl⟩) fun h => ?_
  cases h

/-- First nibble E: the low byte is the sub-op. -/
theorem hasWord_of_opcodeMap_E {b c d : Nib} {i : Instr} (h : opcodeMap 0xE b c d = some i) :
    i.HasWord (0xE#4 ++ b ++ c ++ d) := by
  rw [← encX_nibbles]
  change ite (c = _ ∧ d = _) _ _ = _ at h
  iterate 2 refine hasWord_of_ite h (by rintro ⟨rfl, rfl⟩; exact ⟨rfl, rfl⟩) fun h => ?_
  cases h

/-- First nibble F: the low byte is the sub-op. -/
theorem hasWord_of_opcodeMap_F {b c d : Nib} {i : Instr} (h : opcodeMap 0xF b c d = some i) :
    i.HasWord (0xF#4 ++ b ++ c ++ d) := by
  rw [← encX_nibbles]
  change ite (c = _ ∧ d = _) _ _ = _ at h
  iterate 9 refine hasWord_of_ite h (by rintro ⟨rfl, rfl⟩; exact ⟨rfl, rfl⟩) fun h => ?_
  cases h

/-- Every entry of the opcode map, by its first nibble, is the instruction with those four nibbles. -/
theorem hasWord_of_opcodeMap {a b c d : Nib} {i : Instr} (h : opcodeMap a b c d = some i) :
    i.HasWord (a ++ b ++ c ++ d) := by
  obtain rfl | rfl | rfl | rfl | rfl | rfl | rfl | rfl | rfl | rfl | rfl | rfl | rfl | rfl | rfl | rfl :=
    nib_cases a
  · exact hasWord_of_opcodeMap_0 h
  · cases h; exact ⟨rfl, encA_nibbles ..⟩
  · cases h; exact ⟨rfl, encA_nibbles ..⟩
  · cases h; exact ⟨rfl, encXNN_nibbles ..⟩
  · cases h; exact ⟨rfl, encXNN_nibbles ..⟩
  · exact hasWord_of_ite h (by rintro rfl; exact ⟨rfl, rfl⟩) nofun
  · cases h; exact ⟨rfl, encXNN_nibbles ..⟩
  · cases h; exact ⟨rfl, encXNN_nibbles ..⟩
  · exact hasWord_of_opcodeMap_8 h
  · exact hasWord_of_ite h (by rintro rfl; exact ⟨rfl, rfl⟩) nofun
  · cases h; exact ⟨rfl, encA_nibbles ..⟩
  · cases h; exact ⟨rfl, encA_nibbles ..⟩
  · cases h; exact ⟨rfl, encXNN_nibbles ..⟩
  · cases h; exact ⟨rfl, rfl⟩
  · exact hasWord_of_opcodeMap_E h
  · exact hasWord_of_opcodeMap_F h

/-- Settles O6: a word that decodes is the four nibbles of an entry of the opcode map. -/
theorem decodeThenEncode : Obligations.DecodeThenEncode := by
  unfold Obligations.DecodeThenEncode
  refine Word.forall_nibbles fun a b c d i h => ?_
  rw [decodeWord_nibbles] at h
  split at h
  · next j hmap =>
    cases h
    exact hasWord_of_opcodeMap hmap
  · cases h

/-! ## Words without an entry, and words with two -/

/-- A word is refused exactly when the map has no entry for it. -/
theorem decodeWord_eq_noMatch_iff (a b c d : Nib) :
    decodeWord (a ++ b ++ c ++ d) = .error (.noMatch (a ++ b ++ c ++ d)) ↔ opcodeMap a b c d = none := by
  rw [decodeWord_nibbles]
  cases opcodeMap a b c d <;> simp

theorem ite_some_eq_none_iff {α : Type} {p : Prop} [Decidable p] {x : α} {e : Option α} :
    (if p then some x else e) = none ↔ ¬p ∧ e = none := by
  split_ifs with hp <;> simp [hp]

theorem opcodeMap_8_eq_none_iff (b c d : Nib) :
    opcodeMap 0x8 b c d = none ↔ d ∈ [0x8#4, 0x9#4, 0xA#4, 0xB#4, 0xC#4, 0xD#4, 0xF#4] := by
  change ite (d = _) _ _ = _ ↔ _
  simp only [ite_some_eq_none_iff]
  revert d
  decide

theorem opcodeMap_E_eq_none_iff (b c d : Nib) :
    opcodeMap 0xE b c d = none ↔ c ++ d ∉ [0x9E#8, 0xA1#8] := by
  change ite (c = _ ∧ d = _) _ _ = _ ↔ _
  simp only [ite_some_eq_none_iff]
  revert c d
  decide

theorem opcodeMap_F_eq_none_iff (b c d : Nib) : opcodeMap 0xF b c d = none ↔
    c ++ d ∉ [0x07#8, 0x0A#8, 0x15#8, 0x18#8, 0x1E#8, 0x29#8, 0x33#8, 0x55#8, 0x65#8] := by
  change ite (c = _ ∧ d = _) _ _ = _ ↔ _
  simp only [ite_some_eq_none_iff]
  revert c d
  decide

/-- The map has no entry in the five classes of 30_encoding.md section 3 and nowhere else: the other first
nibbles name an instruction whatever follows. -/
theorem opcodeMap_eq_none_iff (a b c d : Nib) : opcodeMap a b c d = none ↔
    (a = 0x5 ∧ d ≠ 0) ∨
    (a = 0x8 ∧ d ∈ [0x8#4, 0x9#4, 0xA#4, 0xB#4, 0xC#4, 0xD#4, 0xF#4]) ∨
    (a = 0x9 ∧ d ≠ 0) ∨
    (a = 0xE ∧ c ++ d ∉ [0x9E#8, 0xA1#8]) ∨
    (a = 0xF ∧ c ++ d ∉ [0x07#8, 0x0A#8, 0x15#8, 0x18#8, 0x1E#8, 0x29#8, 0x33#8, 0x55#8, 0x65#8]) := by
  obtain rfl | rfl | rfl | rfl | rfl | rfl | rfl | rfl | rfl | rfl | rfl | rfl | rfl | rfl | rfl | rfl :=
    nib_cases a
  on_goal 16 => simpa using opcodeMap_F_eq_none_iff b c d
  on_goal 15 => simpa using opcodeMap_E_eq_none_iff b c d
  on_goal 9 => simpa using opcodeMap_8_eq_none_iff b c d
  all_goals simp [opcodeMap, ite_some_eq_none_iff]

/-- Two rows that match one word agree where both masks look. -/
theorem bits_and_mask_eq {w : Word} {r q : Row} (hr : w &&& r.mask = r.bits)
    (hq : w &&& q.mask = q.bits) : r.bits &&& q.mask = q.bits &&& r.mask := by
  rw [← hr, ← hq, BitVec.and_assoc, BitVec.and_assoc, BitVec.and_comm r.mask]

/-- Over the 35 rows, only `CLS` and `RET` agree so with a later row, and that row is `SYS`. -/
theorem rows_agree_only_with_sys : ∀ m n : Fin dispatchTable.length, m < n →
    dispatchTable[m].bits &&& dispatchTable[n].mask = dispatchTable[n].bits &&& dispatchTable[m].mask →
    (m.val = 0 ∨ m.val = 1) ∧ n.val = 2 := by
  decide

/-- Settles O3: the five classes are the gaps of the opcode map; two rows that match one word agree where
both masks look, and the table has only two such pairs. -/
theorem unmatchedAndDoublyMatchedWords : Obligations.UnmatchedAndDoublyMatchedWords := by
  unfold Obligations.UnmatchedAndDoublyMatchedWords
  refine ⟨fun a b c d => (decodeWord_eq_noMatch_iff a b c d).trans (opcodeMap_eq_none_iff a b c d),
    fun w m n hlt hm hn => ?_⟩
  obtain ⟨h0 | h1, hn2⟩ := rows_agree_only_with_sys m n hlt (bits_and_mask_eq hm hn)
  · obtain rfl : m = ⟨0, by decide⟩ := Fin.ext h0
    exact ⟨.inl ⟨rfl, (BitVec.and_allOnes (x := w)).symm.trans hm⟩, hn2⟩
  · obtain rfl : m = ⟨1, by decide⟩ := Fin.ext h1
    exact ⟨.inr ⟨rfl, (BitVec.and_allOnes (x := w)).symm.trans hm⟩, hn2⟩

/-- Settles O4: each word run through the table. -/
theorem sampleWordsDecode : Obligations.SampleWordsDecode := by
  unfold Obligations.SampleWordsDecode
  exact ⟨rfl, rfl, rfl, rfl, rfl, rfl, rfl, rfl, rfl, rfl, rfl⟩

end Sys2Proof
end

section
/-! The invariant (10_state.md sections 3 to 8): which updates of the state keep it, and with them every
instruction, every Cycle and every event. -/

namespace Sys2Proof.Machine

/-! ## Updates that keep the invariant -/

section Updates

variable {s : State} (h : s.Inv)
include h

theorem State.Inv.setV (x : Nib) (b : Byte) : (s.setV x b).Inv := { h with }

theorem State.Inv.setVFlag (x : Nib) (r : Byte) (f : Bool) : (s.setVFlag x r f).Inv := { h with }

theorem State.Inv.setVVFlag (x y : Nib) (r : Byte) (f : Bool) : (s.setVVFlag x y r f).Inv := { h with }

theorem State.Inv.setVs (bs : List Byte) : (s.setVs bs).Inv := { h with }

theorem State.Inv.setI (w : Word) : (s.setI w).Inv := { h with }

theorem State.Inv.setDt (b : Byte) : (s.setDt b).Inv := { h with }

theorem State.Inv.setSt (b : Byte) : (s.setSt b).Inv := { h with }

theorem State.Inv.setFb (fb : FrameBuf) : (s.setFb fb).Inv := { h with }

theorem State.Inv.countDisplay : s.countDisplay.Inv := { h with }

theorem State.Inv.addDiag (k : DiagKind) (a w : Word) : (s.addDiag k a w).Inv := { h with }

theorem State.Inv.nextDraw : s.nextDraw.Inv := { h with }

theorem State.Inv.dropEvent : s.dropEvent.Inv := { h with }

theorem State.Inv.setMem {m : Memory} (hm : m.wf) : (s.setMem m).Inv := { h with mem := hm }

theorem State.Inv.setPc {w : Word} (hw : w.toNat ≤ 0x10FE) : (s.setPc w).Inv := { h with pc := hw }

theorem State.Inv.setStack {l : List Word} (hlen : l.length ≤ Config.stackDepth)
    (hl : ∀ a ∈ l, a.toNat ≤ 0x1000) : (s.setStack l).Inv :=
  { h with stackLength := hlen, stackEntries := hl }

theorem State.Inv.setTimers {n : Nat} (hn : n < Config.tickUnit) (b c : Byte) :
    (s.setTimers n b c).Inv := { h with tacc := hn }

theorem State.Inv.setWait_none : (s.setWait none).Inv := { h with waiting := fun hne => absurd rfl hne }

theorem State.Inv.setWait_some (hrun : s.exec = .running) (x : Nib) : (s.setWait (some x)).Inv :=
  { h with waiting := fun _ => hrun }

/-- A fault may be raised where no key wait stands. -/
theorem State.Inv.raise (hwait : s.wait = none) {c : Cause} {a : Word} {w : Option Word} {n : Option Nat}
    (hf : (FaultRecord.mk c a w n).Shaped) : (s.raise c a w n).Inv :=
  { h with
    faulted := by simp
    record := by
      intro f heq
      cases heq
      exact hf
    waiting := fun hne => absurd hwait hne }

end Updates

/-! ## The shape of the records -/

theorem shaped_boundsFetch (a : Word) {n : Nat} (hn : 0x1000 ≤ n) :
    (FaultRecord.mk .boundsFetch a none (some n)).Shaped := by
  simpa [FaultRecord.Shaped] using hn

theorem shaped_boundsData (a w : Word) {n : Nat} (hn : 4096 ≤ n) :
    (FaultRecord.mk .boundsData a (some w) (some n)).Shaped := by
  simpa [FaultRecord.Shaped] using hn

/-- A cause that is neither of the two Bounds causes has a word and no address. -/
theorem shaped_of_not_bounds {c : Cause} (hfetch : c ≠ .boundsFetch) (hdata : c ≠ .boundsData)
    (a w : Word) : (FaultRecord.mk c a (some w) none).Shaped := by
  simp [FaultRecord.Shaped, hfetch, hdata]

/-! ## Instructions -/

section Instructions

variable {s : State} (h : s.Inv) (hpc : s.pc.toNat ≤ 0x1000) (hrun : s.exec = .running)
  (hwait : s.wait = none)

include h hpc in
/-- A skip steps at most to 0x1002. -/
theorem State.Inv.skipIf (c : Bool) : (s.skipIf c).Inv := by
  rw [State.skipIf_eq]
  refine h.setPc ?_
  split
  · rw [BitVec.toNat_add, show (2 : Word).toNat = 2 from rfl]
    omega
  · omega

include h hpc in
theorem State.Inv.call {nnn : Addr} (hroom : s.stack.length < 16) :
    ((s.setStack (s.stack ++ [s.pc])).setPc (addrWord nnn)).Inv := by
  have hnnn := nnn.isLt
  refine (h.setStack ?_ ?_).setPc (by rw [toNat_addrWord]; omega)
  · simpa using hroom
  · intro a ha
    obtain ha | ha := List.mem_append.1 ha
    · exact h.stackEntries a ha
    · rw [List.mem_singleton.1 ha]
      exact hpc

include h in
theorem State.Inv.ret {l : List Word} {a : Word} (hstack : s.stack = l ++ [a]) :
    ((s.setStack l).setPc a).Inv := by
  have hlen := h.stackLength
  have hentries := h.stackEntries
  rw [hstack] at hlen hentries
  have ha : a.toNat ≤ 0x1000 := hentries a (by simp)
  refine (h.setStack ?_ fun b hb => hentries b (by simp [hb])).setPc (by omega)
  rw [List.length_append] at hlen
  omega

include h in
/-- A store inside memory at the index. -/
theorem State.Inv.store {vs : List Byte} (hin : s.indexAddr + vs.length ≤ 4096) :
    (s.setMem (s.mem.writeList s.indexAddr vs)).Inv :=
  h.setMem (Memory.writeList_wf vs s.mem s.indexAddr hin h.mem)

include h hwait in
/-- The lowest address out of memory that a range check names. -/
theorem State.Inv.raise_boundsData (a w : Word) :
    (s.raise .boundsData a (some w) (some (max s.indexAddr 4096))).Inv :=
  h.raise hwait (shaped_boundsData a w (Nat.le_max_right _ _))

include h hpc hrun hwait in
/-- Every instruction keeps the invariant, from a `PC` as the fetch left it. -/
theorem exec_keeps_inv {i : Instr} {t : State} (hexec : exec i s = .next t) : t.Inv := by
  cases i with
  | cls => cases hexec; exact (h.setFb _).countDisplay
  | drw x y n =>
    obtain ⟨-, heq⟩ | ⟨-, heq⟩ := execDrw_cases s x y n <;> cases heq.symm.trans hexec
    · exact ((h.setFb _).setV _ _).countDisplay
    · exact h.raise_boundsData hwait _ _
  | sys => cases hexec; exact h
  | ret =>
    obtain ⟨l, a, hstack, heq⟩ | ⟨-, -, heq⟩ | ⟨-, -, heq⟩ := execRet_cases s <;>
      cases heq.symm.trans hexec
    · exact h.ret hstack
    · exact h.raise hwait (shaped_of_not_bounds (by decide) (by decide) _ _)
    · exact h.addDiag _ _ _
  | call nnn =>
    obtain ⟨hroom, heq⟩ | ⟨-, heq⟩ := execCall_cases s nnn <;> cases heq.symm.trans hexec
    · exact h.call hpc hroom
    · exact h.raise hwait (shaped_of_not_bounds (by decide) (by decide) _ _)
  | jp nnn =>
    cases hexec
    have hnnn := nnn.isLt
    exact h.setPc (by rw [toNat_addrWord]; omega)
  | jpV0 nnn =>
    cases hexec
    have hnnn := nnn.isLt
    have hv := (s.getV 0).isLt
    exact h.setPc (by rw [State.toNat_offsetTarget]; omega)
  | seImm | sneImm | seReg | sneReg | skp | sknp => cases hexec; exact h.skipIf hpc _
  | ldImm | addImm | ldReg | orReg | andReg | xorReg | ldVxDt => cases hexec; exact h.setV _ _
  | addReg | sub | subn => cases hexec; exact h.setVFlag _ _ _
  | shr | shl => cases hexec; exact h.setVVFlag _ _ _ _
  | rnd => cases hexec; exact (h.setV _ _).nextDraw
  | ldI | addI | ldF => cases hexec; exact h.setI _
  | ldB x =>
    obtain ⟨hin, heq⟩ | ⟨-, heq⟩ := execLdB_cases s x <;> cases heq.symm.trans hexec
    · exact h.store hin
    · exact h.raise_boundsData hwait _ _
  | ldMemVx x =>
    obtain ⟨hin, heq⟩ | ⟨-, heq⟩ := execLdMemVx_cases s x <;> cases heq.symm.trans hexec
    · exact (h.store (by rwa [s.length_getVs])).setI _
    · exact h.raise_boundsData hwait _ _
  | ldVxMem x =>
    obtain ⟨-, heq⟩ | ⟨-, heq⟩ := execLdVxMem_cases s x <;> cases heq.symm.trans hexec
    · exact (h.setVs _).setI _
    · exact h.raise_boundsData hwait _ _
  | ldVxK => cases hexec; exact h.setWait_some hrun _
  | ldDtVx => cases hexec; exact h.setDt _
  | ldStVx => cases hexec; exact h.setSt _

end Instructions

/-! ## Events -/

/-- After a fetch in bounds `PC` stands at most at 0x1000. -/
theorem toNat_add_two_le {pc : Word} (h : pc.toNat + 1 ≤ 0xFFF) : (pc + 2).toNat ≤ 0x1000 := by
  rw [BitVec.toNat_add, show (2 : Word).toNat = 2 from rfl]
  omega

theorem cycle_keeps_inv {s t : State} (h : s.Inv) (hcycle : cycle s = .next t) : t.Inv := by
  obtain ⟨⟨hrun, hwait⟩, hways⟩ := cycle_cases s t hcycle
  obtain ⟨a, ha, -, rfl⟩ | ⟨hpc, hways⟩ := hways
  · exact h.raise hwait (shaped_boundsFetch _ ha)
  have hpc' := toNat_add_two_le hpc
  have hadv : (s.setPc (s.pc + 2)).Inv := h.setPc (by omega)
  obtain ⟨i, -, hexec⟩ | ⟨-, ⟨-, rfl⟩ | ⟨-, rfl⟩⟩ := hways
  · exact exec_keeps_inv hadv hpc' hrun hwait hexec
  · exact hadv.raise hwait (shaped_of_not_bounds (by decide) (by decide) _ _)
  · exact hadv.addDiag _ _ _

theorem State.Inv.elapse {s : State} (h : s.Inv) (dt : Nat) : (s.elapse dt).Inv := by
  by_cases hrun : s.exec = .running
  · rw [s.elapse_running dt hrun]
    exact h.setTimers (Nat.mod_lt _ (by decide)) _ _
  · rwa [s.elapse_frozen dt hrun]

/-- A press leaves a key pressed and sets `LAST`; a release clears `LAST` when it was the last pressed key
(60_exceptions.md R351). -/
theorem State.Inv.latch_last_iff {s : State} (h : s.Inv) (k : Nib) (p : Bool) :
    (s.latch k p).last = none ↔ ∀ j, (s.latch k p).key j = false := by
  cases p with
  | true =>
    refine iff_of_false (by simp [State.last_latch]) fun hnone => ?_
    simpa [State.key_latch] using hnone k
  | false =>
    simp only [State.last_latch, Bool.false_eq_true, if_false, State.allReleased_iff, State.key_latch,
      State.key_setKey]
    split
    · next hall => exact iff_of_true rfl hall
    · next hsome =>
      refine iff_of_false (fun hlast => hsome fun j => ?_) hsome
      rw [h.latch.1 hlast j, ite_self]

theorem State.Inv.latched {s : State} (h : s.Inv) (k : Nib) (p : Bool) : (s.latch k p).Inv := by
  have hlast := h.latch_last_iff k p
  rw [s.latch_eq k p] at hlast ⊢
  exact { h with latch := hlast }

theorem State.Inv.keyEvent {s : State} (h : s.Inv) (k : Nib) (p : Bool) : (s.keyEvent k p).Inv := by
  obtain ⟨x, -, -, -, heq⟩ | ⟨-, heq⟩ := s.keyEvent_cases k p <;> rw [heq]
  · exact ((h.latched k p).setV _ _).setWait_none
  · exact h.latched k p

/-- A running machine has no fault recorded, so a Stop halts it without one. -/
theorem State.Inv.stop {s : State} (h : s.Inv) : s.stop.Inv := by
  by_cases hrun : s.exec = .running
  · rw [s.stop_running hrun]
    have hfault : ¬ s.fault ≠ none := fun hne => by simp [h.faulted.2 hne] at hrun
    exact { h with
      faulted := iff_of_false RunState.noConfusion hfault
      waiting := fun hne => absurd rfl hne }
  · rwa [s.stop_frozen hrun]

theorem State.inv_reset : State.reset.Inv where
  mem := Memory.reset_wf
  stackLength := by decide
  stackEntries := List.forall_mem_nil _
  pc := by decide
  tacc := by decide
  faulted := by decide
  record := nofun
  waiting := fun hne => absurd rfl hne
  latch := iff_of_true rfl State.reset.key_toReset
  font := by decide

/-- A Reset keeps the parameters, of which the invariant asks that the font fits. -/
theorem State.inv_toReset {s : State} (hfont : s.params.FontFits) : s.toReset.Inv :=
  { State.inv_reset with font := hfont }

/-- A Load is a reset and one write of memory. -/
theorem State.loadImage_eq_setMem (s : State) (img : List Byte) :
    s.loadImage img = s.toReset.setMem (s.loadImage img).mem := by
  rw [State.loadImage, State.preloadFont_eq]
  rfl

theorem length_le_of_loadEvent_next {s t : State} {img : List Byte} (h : loadEvent img s = .next t) :
    img.length ≤ 3584 := by
  simp only [loadEvent] at h
  split_ifs at h with hempty hlong
  exact Nat.le_of_not_lt hlong

/-- Every event keeps the invariant. -/
theorem deliver_keeps_inv {e : Event} {s t : State} (h : s.Inv) (hd : deliver e s = .next t) : t.Inv := by
  cases e with
  | cycle => exact cycle_keeps_inv h hd
  | time dt => cases hd; exact h.elapse dt
  | key k p => cases hd; exact h.keyEvent k p
  | stop => cases hd; exact h.stop
  | reset => cases hd; exact State.inv_toReset h.font
  | load img =>
    have hlen := length_le_of_loadEvent_next hd
    rw [eq_loadImage_of_loadEvent_next hd, s.loadImage_eq_setMem]
    exact (State.inv_toReset h.font).setMem (State.mem_loadImage_wf hlen fun _ => h.font)

/-! ## The obligations -/

/-- Settles O49: a step takes an event off the list and delivers it. -/
theorem stepKeepsInvariant : Obligations.StepKeepsInvariant := by
  unfold Obligations.StepKeepsInvariant
  exact fun s t h hstep => deliver_keeps_inv h.dropEvent hstep

/-- Settles O48: a closed check of each field. -/
theorem resetMeetsInvariant : Obligations.ResetMeetsInvariant := State.inv_reset

end Sys2Proof.Machine
end

section
/-! Who writes what: from the frame of an instruction (`exec_frame`), which instructions can change each
field, and what a step does to the parameters and the draws. -/

namespace Sys2Proof.Machine

/-! ## Precise faults and total instructions -/

/-- Settles O45: an instruction that leaves `Running` did not complete, so it raised its fault on the state it
was given. -/
theorem instructionFaultsArePrecise : Obligations.InstructionFaultsArePrecise := by
  unfold Obligations.InstructionFaultsArePrecise
  intro i s t hrun h hleft
  obtain ⟨u, hu, hexec, -⟩ | ⟨c, a, -, -, hraise⟩ := exec_cases i s
  · cases hu.symm.trans h
    exact absurd (hexec.trans hrun) hleft
  · rw [hraise]
    exact ⟨c, a, s.faultsWith_raiseIn ..⟩

/-- Settles O44: completing and taking a fault are both next states. -/
theorem everyInstructionAnswersNext : Obligations.EveryInstructionAnswersNext := by
  unfold Obligations.EveryInstructionAnswersNext
  exact exec_answers_next

/-! ## The index, the stack, the timers and the latch -/

/-- A field that is neither written nor part of a fault is as before. -/
theorem agree_of_not_mem_writtenFields {i : Instr} {s t : State} (h : exec i s = .next t) {f : Field}
    (hw : f ∉ writtenFields i) (hf : f ∉ [Field.exec, .fault]) : Agree s t f :=
  by_contra fun hne => (mem_writtenFields_of_not_agree h hne).elim hw hf

theorem index_writer {i : Instr} (h : Field.i ∈ writtenFields i) :
    (∃ a, i = .ldI a) ∨ ∃ x, i = .addI x ∨ i = .ldF x ∨ i = .ldMemVx x ∨ i = .ldVxMem x := by
  cases i with
  | ldI a => exact .inl ⟨a, rfl⟩
  | addI x => exact .inr ⟨x, .inl rfl⟩
  | ldF x => exact .inr ⟨x, .inr (.inl rfl)⟩
  | ldMemVx x => exact .inr ⟨x, .inr (.inr (.inl rfl))⟩
  | ldVxMem x => exact .inr ⟨x, .inr (.inr (.inr rfl))⟩
  | _ => simp [writtenFields] at h

/-- Settles O52: `I` is among the written fields of the five only. -/
theorem onlyFiveInstructionsWriteIndex : Obligations.OnlyFiveInstructionsWriteIndex := by
  unfold Obligations.OnlyFiveInstructionsWriteIndex
  exact fun i s t h hne =>
    index_writer ((mem_writtenFields_of_not_agree (f := .i) h hne).resolve_right (by decide))

theorem stack_writer {i : Instr} (h : Field.stack ∈ writtenFields i) : i = .ret ∨ ∃ a, i = .call a := by
  cases i with
  | ret => exact .inl rfl
  | call a => exact .inr ⟨a, rfl⟩
  | _ => simp [writtenFields] at h

/-- Settles O54: the stack is among the written fields of `RET` and `CALL` only; where it changed, `RET`
popped into `PC` and `CALL` pushed `PC`. -/
theorem onlyCallAndReturnMoveStack : Obligations.OnlyCallAndReturnMoveStack := by
  unfold Obligations.OnlyCallAndReturnMoveStack
  intro i s t h hne
  obtain rfl | ⟨nnn, rfl⟩ :=
    stack_writer ((mem_writtenFields_of_not_agree (f := .stack) h hne).resolve_right (by decide))
  · obtain ⟨l, a, hstack, heq⟩ | ⟨-, -, heq⟩ | ⟨-, -, heq⟩ := execRet_cases s <;>
      cases heq.symm.trans h
    · exact .inr ⟨rfl, hstack⟩
    · exact absurd rfl hne
    · exact absurd rfl hne
  · obtain ⟨-, heq⟩ | ⟨-, heq⟩ := execCall_cases s nnn <;> cases heq.symm.trans h
    · exact .inl ⟨nnn, rfl, rfl⟩
    · exact absurd rfl hne

theorem delay_timer_writer {i : Instr} (h : Field.dt ∈ writtenFields i) : ∃ x, i = .ldDtVx x := by
  cases i with
  | ldDtVx x => exact ⟨x, rfl⟩
  | _ => simp [writtenFields] at h

theorem sound_timer_writer {i : Instr} (h : Field.st ∈ writtenFields i) : ∃ x, i = .ldStVx x := by
  cases i with
  | ldStVx x => exact ⟨x, rfl⟩
  | _ => simp [writtenFields] at h

theorem accumulator_and_latch_not_written (i : Instr) :
    Field.tacc ∉ writtenFields i ∧ Field.keys ∉ writtenFields i ∧ Field.last ∉ writtenFields i := by
  cases i <;> simp [writtenFields]

/-- The 16 keys are what `Key[k]` reads. -/
theorem State.keys_eq_of_key_eq {s t : State} (h : ∀ k, t.key k = s.key k) : t.keys = s.keys := by
  apply Vector.ext
  intro n hn
  have hkey := h (BitVec.ofNat 4 n)
  simpa [State.key, Nat.mod_eq_of_lt hn] using hkey

/-- Settles O55: each timer is among the written fields of one instruction, `TACC` and the latch of none. -/
theorem timersAndLatchWriters : Obligations.TimersAndLatchWriters := by
  unfold Obligations.TimersAndLatchWriters
  intro i s t h
  obtain ⟨htacc, hkeys, hlast⟩ := accumulator_and_latch_not_written i
  refine ⟨fun hne => ?_, fun hne => ?_, ?_, ?_, ?_⟩
  · exact delay_timer_writer
      ((mem_writtenFields_of_not_agree (f := .dt) h hne).resolve_right (by decide))
  · exact sound_timer_writer
      ((mem_writtenFields_of_not_agree (f := .st) h hne).resolve_right (by decide))
  · exact agree_of_not_mem_writtenFields h htacc (by decide)
  · exact State.keys_eq_of_key_eq (agree_of_not_mem_writtenFields h hkeys (by decide))
  · exact agree_of_not_mem_writtenFields h hlast (by decide)

/-! ## Memory -/

@[simp] theorem State.mem_skipIf (s : State) (c : Bool) : (s.skipIf c).mem = s.mem := by
  rw [State.skipIf_eq, State.setPc_mem]

/-- Memory is the same list, not only read the same, unless the instruction is a store. -/
theorem mem_of_exec {i : Instr} {s t : State} (h : exec i s = .next t) :
    t.mem = s.mem ∨ (∃ x, i = .ldB x) ∨ ∃ x, i = .ldMemVx x := by
  cases i with
  | ldB x => exact .inr (.inl ⟨x, rfl⟩)
  | ldMemVx x => exact .inr (.inr ⟨x, rfl⟩)
  | ret =>
    obtain ⟨l, a, -, heq⟩ | ⟨-, -, heq⟩ | ⟨-, -, heq⟩ := execRet_cases s <;>
      cases heq.symm.trans h <;> exact .inl rfl
  | call nnn =>
    obtain ⟨-, heq⟩ | ⟨-, heq⟩ := execCall_cases s nnn <;> cases heq.symm.trans h <;> exact .inl rfl
  | drw x y n =>
    obtain ⟨-, heq⟩ | ⟨-, heq⟩ := execDrw_cases s x y n <;> cases heq.symm.trans h <;> exact .inl rfl
  | ldVxMem x =>
    obtain ⟨-, heq⟩ | ⟨-, heq⟩ := execLdVxMem_cases s x <;> cases heq.symm.trans h <;> exact .inl rfl
  | seImm | sneImm | seReg | sneReg | skp | sknp => cases h; exact .inl (State.mem_skipIf _ _)
  | cls | sys | jp | ldImm | addImm | ldReg | orReg | andReg | xorReg | addReg | sub | shr | subn | shl
  | ldI | jpV0 | rnd | ldVxDt | ldVxK | ldDtVx | ldStVx | addI | ldF => cases h; exact .inl rfl

/-- Settles O51: every other instruction leaves the list of memory as it is. -/
theorem onlyStoresWriteMemory : Obligations.OnlyStoresWriteMemory := by
  unfold Obligations.OnlyStoresWriteMemory
  exact fun i s t h hne => (mem_of_exec h).resolve_left hne

/-! ## The flag register -/

/-- A register that a write of `V[X]` changed is `V[X]`. -/
theorem eq_of_getV_setV_ne {s : State} {x k : Nib} {b : Byte} (h : (s.setV x b).getV k ≠ s.getV k) :
    x = k :=
  by_contra fun hx => h ((s.getV_setV x b k).trans (if_neg (Ne.symm hx)))

/-- FX65 reaches `V15` only when it loads all registers. -/
theorem eq_fifteen_of_exec_ldVxMem {s t : State} {x : Nib} (h : exec (.ldVxMem x) s = .next t)
    (hne : t.getV 15 ≠ s.getV 15) : x = 15 := by
  obtain ⟨-, heq⟩ | ⟨-, heq⟩ := execLdVxMem_cases s x <;> cases heq.symm.trans h
  · have hle : 15 ≤ x.toNat :=
      by_contra fun hlt => hne ((s.getV_setVs_bytesAtIndex x 15).trans (if_neg hlt))
    have hx := x.isLt
    exact BitVec.eq_of_toNat_eq (show x.toNat = 15 by omega)
  · exact absurd rfl hne

/-- Settles O56: the registers are among the written fields of the flag instructions and of those with a
plain destination; the write of another register leaves `VF` as it was. -/
theorem flagRegisterWriters : Obligations.FlagRegisterWriters := by
  unfold Obligations.FlagRegisterWriters
  intro i s t h hne
  have hw : Field.v ∈ writtenFields i :=
    (mem_writtenFields_of_not_agree (f := .v) h fun hall => hne (hall 15)).resolve_right (by decide)
  cases i with
  | addReg | sub | shr | subn | shl | drw => simp
  | ldImm | addImm | rnd | ldReg | orReg | andReg | xorReg | ldVxDt =>
    cases h
    obtain rfl := eq_of_getV_setV_ne hne
    simp
  | ldVxMem x =>
    obtain rfl := eq_fifteen_of_exec_ldVxMem h hne
    exact .inr (.inr (.inr (.inr rfl)))
  | _ => simp [writtenFields] at hw

/-! ## The parameters and the draws -/

theorem params_not_written (i : Instr) : Field.params ∉ writtenFields i := by
  cases i <;> simp [writtenFields]

/-- The count of draws stays, or `RND` adds one to it. -/
theorem draws_le_of_exec {i : Instr} {s t : State} (h : exec i s = .next t) : s.draws ≤ t.draws := by
  by_cases hw : Field.draws ∈ writtenFields i
  · cases i with
    | rnd x nn => cases h; exact Nat.le_succ _
    | _ => simp [writtenFields] at hw
  · exact (agree_of_not_mem_writtenFields h hw (by decide)).ge

/-- What holds of the parameters and the draws when neither is written. -/
theorem params_draws_of_onlyChanged {l : List Field} {s t : State} (h : OnlyChanged l s t)
    (hparams : Field.params ∉ l) (hdraws : Field.draws ∉ l) : t.params = s.params ∧ s.draws ≤ t.draws :=
  ⟨h _ hparams, (h _ hdraws).ge⟩

theorem State.onlyChanged_elapse (s : State) (dt : Nat) :
    OnlyChanged [.tacc, .dt, .st] s (s.elapse dt) := by
  by_cases hrun : s.exec = .running
  · rw [s.elapse_running dt hrun]
    exact s.onlyChanged_setTimers _ _ _
  · rw [s.elapse_frozen dt hrun]
    exact s.onlyChanged_refl _

theorem State.onlyChanged_stop (s : State) : OnlyChanged [.exec, .wait] s s.stop := by
  by_cases hrun : s.exec = .running
  · rw [s.stop_running hrun]
    exact (s.onlyChanged_setExec _).trans (State.onlyChanged_setWait _ _)
  · rw [s.stop_frozen hrun]
    exact s.onlyChanged_refl _

theorem params_draws_of_cycle {s t : State} (h : cycle s = .next t) :
    t.params = s.params ∧ s.draws ≤ t.draws := by
  obtain ⟨-, ⟨a, -, -, rfl⟩ | ⟨-, ⟨i, -, hexec⟩ | ⟨-, ⟨-, rfl⟩ | ⟨-, rfl⟩⟩⟩⟩ := cycle_cases s t h
  · exact ⟨rfl, le_rfl⟩
  · exact ⟨agree_of_not_mem_writtenFields hexec (params_not_written i) (by decide),
      draws_le_of_exec (s := s.setPc (s.pc + 2)) hexec⟩
  · exact ⟨rfl, le_rfl⟩
  · exact ⟨rfl, le_rfl⟩

/-- A Reset and a Load keep both, as the model chooses (log 8). -/
theorem params_draws_of_deliver {e : Event} {s t : State} (h : deliver e s = .next t) :
    t.params = s.params ∧ s.draws ≤ t.draws := by
  cases e with
  | cycle => exact params_draws_of_cycle h
  | time dt => cases h; exact params_draws_of_onlyChanged (s.onlyChanged_elapse dt) (by decide) (by decide)
  | key k p => cases h; exact params_draws_of_onlyChanged (s.onlyChanged_keyEvent k p) (by decide) (by decide)
  | stop => cases h; exact params_draws_of_onlyChanged s.onlyChanged_stop (by decide) (by decide)
  | reset => cases h; exact ⟨rfl, le_rfl⟩
  | load img =>
    rw [eq_loadImage_of_loadEvent_next h, s.loadImage_eq_setMem]
    exact ⟨rfl, le_rfl⟩

/-- Settles O50: a step delivers an event to the state without that event, whose parameters and draws are the
state's. -/
theorem stepKeepsParameters : Obligations.StepKeepsParameters := by
  unfold Obligations.StepKeepsParameters
  exact fun s t h => params_draws_of_deliver (s := s.dropEvent) h

end Sys2Proof.Machine
end

section
/-! Instructions and events together: nested calls and returns (41_flow.md), stores that loads and fetches
see (43_index_memory.md, 20_memory.md section 8), a draw repeated (44_display.md), and time in parts
(60_exceptions.md section 4); then what one step takes, runs or refuses. -/

namespace Sys2Proof.Machine

/-! ## Calls and returns -/

theorem execAll_cons_of_next {pc : Word} {i : Instr} {is : List (Word × Instr)} {s t : State}
    (h : exec i (s.setPc pc) = .next t) : execAll ((pc, i) :: is) s = execAll is t := by
  simp only [execAll, h]

/-- Calls with room push the `PC` each began with, and change nothing else but `PC`. -/
theorem execAll_calls (calls : List (Word × Addr)) (s : State)
    (hroom : s.stack.length + calls.length ≤ 16) :
    ∃ w, execAll (calls.map fun c => (c.1, Instr.call c.2)) s =
      .next ((s.setStack (s.stack ++ calls.map Prod.fst)).setPc w) := by
  induction calls generalizing s with
  | nil => exact ⟨s.pc, by simp only [List.map_nil, List.append_nil]; rfl⟩
  | cons c calls ih =>
    obtain ⟨pc, target⟩ := c
    rw [List.length_cons] at hroom
    have hcall : exec (.call target) (s.setPc pc) =
        .next ((s.setStack (s.stack ++ [pc])).setPc (addrWord target)) :=
      execCall_of_room (s := s.setPc pc) target (by rw [State.setPc_stack]; omega)
    obtain ⟨w, hw⟩ := ih ((s.setStack (s.stack ++ [pc])).setPc (addrWord target))
      (by simp only [State.setPc_stack, State.setStack_stack, List.length_append, List.length_singleton]
          omega)
    refine ⟨w, ?_⟩
    rw [List.map_cons, execAll_cons_of_next hcall, hw]
    simp only [State.setPc_stack, State.setStack_stack, List.append_assoc, List.singleton_append,
      List.map_cons]
    rfl

/-- As many returns as there are entries over `below` take them all, and `PC` ends as the oldest of
them. -/
theorem execAll_rets (rets : List Word) (s : State) (below entries : List Word)
    (hstack : s.stack = below ++ entries) (hlen : rets.length = entries.length) :
    execAll (rets.map fun p => (p, Instr.ret)) s =
      .next ((s.setStack below).setPc (entries.headD s.pc)) := by
  induction rets generalizing s entries with
  | nil =>
    obtain rfl := List.length_eq_zero_iff.1 hlen.symm
    rw [List.append_nil] at hstack
    subst hstack
    rfl
  | cons p rets ih =>
    obtain rfl | ⟨older, a, rfl⟩ := List.eq_nil_or_concat' entries
    · simp at hlen
    · have hret : exec .ret (s.setPc p) = .next ((s.setStack (below ++ older)).setPc a) :=
        execRet_of_stack_append (s := s.setPc p)
          (by rw [State.setPc_stack, hstack, List.append_assoc])
      rw [List.map_cons, execAll_cons_of_next hret, ih _ older rfl (by simpa using hlen)]
      cases older <;> rfl

/-- Settles O57: the calls leave their `PC`s on the stack, the returns take all of them, the oldest last; when
the calls fill the stack, the next one finds no room. -/
theorem nestedCallsReturn : Obligations.NestedCallsReturn := by
  unfold Obligations.NestedCallsReturn
  refine ⟨fun s pc target calls rets hlen hroom => ?_, fun s calls hfull => ?_⟩
  · obtain ⟨w, hcalls⟩ := execAll_calls ((pc, target) :: calls) s (by rw [List.length_cons]; omega)
    refine ⟨s.setPc pc, ?_, rfl, s.onlyChanged_setPc pc⟩
    rw [execAll_append, hcalls]
    exact execAll_rets rets ((s.setStack _).setPc w) s.stack (((pc, target) :: calls).map Prod.fst) rfl
      (by simpa using hlen)
  · obtain ⟨w, hcalls⟩ := execAll_calls calls s hfull.le
    refine ⟨_, hcalls, fun pc target => ?_⟩
    rw [exec, execCall_of_full target (by simpa using hfull.ge)]
    exact State.faultsWith_raiseIn ..

/-! ## Stores, loads and fetches -/

/-- Memory after FX33. -/
theorem readByte_of_exec_ldB {s t : State} {x : Nib} (hwf : s.mem.wf) (hin : s.indexAddr + 2 < 4096)
    (h : exec (.ldB x) s = .next t) (a : Nat) :
    t.readByte a = s.byteWithStored (decimalDigits (s.getV x)) a := by
  cases (execLdB_of_inside x hin).symm.trans h
  exact State.readByte_setMem_writeList hwf (by exact hin) a

/-- Memory after FX55. -/
theorem readByte_of_exec_ldMemVx {s t : State} {x : Nib} (hwf : s.mem.wf)
    (hin : s.indexAddr + x.toNat < 4096) (h : exec (.ldMemVx x) s = .next t) (a : Nat) :
    t.readByte a = s.byteWithStored (s.getVs x) a := by
  cases (execLdMemVx_of_inside hin).symm.trans h
  rw [State.setI_readByte]
  exact State.readByte_setMem_writeList hwf (by rw [s.length_getVs]; exact hin) a

/-- Settles O58: the byte at `I + k` after the store is `V[k]`, and the load reads it from there. -/
theorem storedRegistersLoadBack : Obligations.StoredRegistersLoadBack := by
  unfold Obligations.StoredRegistersLoadBack
  intro s t u x hwf hin hstore hmem hi
  have hindex : u.indexAddr = s.indexAddr := congrArg BitVec.toNat hi
  refine ⟨_, execLdVxMem_of_inside (s := u) (by rwa [hindex]), fun k hk => ?_⟩
  have hread : u.readByte (s.indexAddr + k.toNat) = t.readByte (s.indexAddr + k.toNat) := by
    rw [State.readByte, State.readByte, hmem]
  rw [State.setI_getV, State.getV_setVs_bytesAtIndex, if_pos hk, hindex, hread,
    readByte_of_exec_ldMemVx hwf hin hstore, State.byteWithStored_getVs, if_pos (by omega),
    Nat.add_sub_cancel_left, BitVec.ofNat_toNat, BitVec.setWidth_eq]

/-- Settles O59: the fetched word is made of the two bytes at `PC`, which are as the store left them. -/
theorem fetchSeesStore : Obligations.FetchSeesStore := by
  unfold Obligations.FetchSeesStore
  intro s t u x hwf hhi hlo
  have hfetch : u.fetchWord = t.readByte u.pc.toNat ++ t.readByte (u.pc.toNat + 1) := by
    rw [← hhi, ← hlo]
    rfl
  refine ⟨fun hin h => ?_, fun hin h => ?_⟩
  · rw [hfetch, readByte_of_exec_ldB hwf hin h, readByte_of_exec_ldB hwf hin h]
    rfl
  · rw [hfetch, readByte_of_exec_ldMemVx hwf hin h, readByte_of_exec_ldMemVx hwf hin h]
    rfl

/-! ## A draw repeated -/

/-- Where two states agree on the edge policy, the index and memory, a draw aims the same bits. -/
theorem State.spriteBit_afterDraw (s : State) (x y n : Nib) (x0 y0 m cx cy : Nat) :
    (s.afterDraw x y n).spriteBit x0 y0 m cx cy = s.spriteBit x0 y0 m cx cy := rfl

theorem State.fbAt_afterDraw (s : State) (x y n : Nib) {cx cy : Nat} (hcx : cx < 64) (hcy : cy < 32) :
    (s.afterDraw x y n).fbAt cx cy =
      (s.fbAt cx cy ^^ s.spriteBit (s.startCol x) (s.startRow y) n.toNat cx cy) :=
  (s.drawn_spec x y n).1 cx hcx cy hcy

/-- Settles O33: the second draw aims the same bits, so each cell is XORed twice, and it collides where the
first one set a cell. -/
theorem drawingTwiceRestores : Obligations.DrawingTwiceRestores := by
  unfold Obligations.DrawingTwiceRestores
  intro s t x y n hin hdraw hcol hrow
  cases (execDrw_of_inside x y hin).symm.trans hdraw
  replace hcol : (s.afterDraw x y n).startCol x = s.startCol x := hcol
  replace hrow : (s.afterDraw x y n).startRow y = s.startRow y := hrow
  refine ⟨_, execDrw_of_inside x y hin, fun cx hcx cy hcy => ?_, ?_, ?_⟩
  · rw [State.fbAt_afterDraw _ x y n hcx hcy, State.fbAt_afterDraw s x y n hcx hcy, hcol, hrow,
      State.spriteBit_afterDraw, Bool.xor_assoc, Bool.xor_self, Bool.xor_false]
  · rintro ⟨cx, hcx, cy, hcy, hold, hnew⟩
    have hbit := State.fbAt_afterDraw s x y n hcx hcy
    rw [hold, hnew, Bool.false_xor] at hbit
    refine State.getV_afterDraw_of_collides ⟨cx, hcx, cy, hcy, ?_, hnew⟩
    rw [hcol, hrow, State.spriteBit_afterDraw, ← hbit]
  · intro hsame
    refine State.getV_afterDraw_of_not_collides ?_
    rintro ⟨cx, hcx, cy, hcy, hbit, -⟩
    rw [hcol, hrow, State.spriteBit_afterDraw] at hbit
    have hcell := hsame cx hcx cy hcy
    rw [State.fbAt_afterDraw s x y n hcx hcy, hbit] at hcell
    simp at hcell

/-! ## Time in parts -/

/-- A timer that runs down in two parts runs down by their sum. -/
theorem timerMinus_timerMinus (b : Byte) (m n : Nat) :
    timerMinus (timerMinus b m) n = timerMinus b (m + n) := by
  apply BitVec.eq_of_toNat_eq
  rw [toNat_timerMinus, toNat_timerMinus, toNat_timerMinus, Nat.sub_sub]

/-- The prescaler carries its remainder, so ticks in two parts are the ticks of the whole
(60_exceptions.md R340). -/
theorem State.elapse_elapse (s : State) (a b : Nat) : (s.elapse a).elapse b = s.elapse (a + b) := by
  by_cases hrun : s.exec = .running
  · have hmod : ((s.tacc + 60 * a) % 1000000000 + 60 * b) % 1000000000 =
        (s.tacc + 60 * (a + b)) % 1000000000 := by omega
    have hdiv : (s.tacc + 60 * a) / 1000000000 +
        ((s.tacc + 60 * a) % 1000000000 + 60 * b) / 1000000000 =
        (s.tacc + 60 * (a + b)) / 1000000000 := by omega
    rw [s.elapse_running a hrun, s.elapse_running (a + b) hrun,
      State.elapse_running _ b (by exact hrun), State.setTimers_tacc, State.setTimers_dt,
      State.setTimers_st, timerMinus_timerMinus, timerMinus_timerMinus, hmod, hdiv]
    rfl
  · rw [s.elapse_frozen a hrun, s.elapse_frozen b hrun, s.elapse_frozen (a + b) hrun]

/-- No time is no tick where `TACC` is below one. -/
theorem State.elapse_zero {s : State} (h : s.tacc < 1000000000) : s.elapse 0 = s := by
  by_cases hrun : s.exec = .running
  · have htimer : ∀ b : Byte, timerMinus b 0 = b := fun b => BitVec.eq_of_toNat_eq (by simp)
    rw [s.elapse_running 0 hrun, Nat.mul_zero, Nat.add_zero, Nat.mod_eq_of_lt h, Nat.div_eq_of_lt h,
      htimer, htimer]
    rfl
  · exact s.elapse_frozen 0 hrun

theorem State.tacc_elapse_lt {s : State} (h : s.tacc < 1000000000) (dt : Nat) :
    (s.elapse dt).tacc < 1000000000 := by
  by_cases hrun : s.exec = .running
  · rw [s.elapse_running dt hrun]
    exact Nat.mod_lt _ (by decide)
  · rwa [s.elapse_frozen dt hrun]

theorem step_of_pending {s : State} {e : Event} {rest : List Event} (h : s.pending = e :: rest) :
    step s = deliver e (s.setPending rest) := by
  simp only [step, State.nextEvent, State.dropEvent, h, List.headD_cons, List.tail_cons]

/-- Steps over Time events leave what the whole time leaves. -/
theorem run_times (dts : List Nat) (s : State) (rest : List Event) (h : s.tacc < 1000000000)
    (hpending : s.pending = dts.map Event.time ++ rest) :
    Host.Core.run core dts.length s = .next ((s.setPending rest).elapse dts.sum) := by
  induction dts generalizing s with
  | nil =>
    obtain rfl : s.pending = rest := hpending
    rw [List.sum_nil, State.elapse_zero (by exact h)]
    rfl
  | cons dt dts ih =>
    have hstep : step s = .next ((s.setPending (dts.map Event.time ++ rest)).elapse dt) :=
      step_of_pending hpending
    have hkept := State.onlyChanged_elapse (s.setPending (dts.map Event.time ++ rest)) dt .pending
      (by decide)
    rw [List.length_cons, run_succ _ _ _ hstep, ih _ (State.tacc_elapse_lt (by exact h) dt) hkept,
      ← State.elapse_setPending, State.elapse_elapse, List.sum_cons]
    rfl

/-- Settles O43: one Time event of the sum is the elapse that the steps make up. -/
theorem timeSplitsWithoutDrift : Obligations.TimeSplitsWithoutDrift := by
  unfold Obligations.TimeSplitsWithoutDrift
  exact fun s dts rest h hpending => ⟨_, rfl, run_times dts s rest h hpending⟩

/-! ## One step: its event, a Cycle without a step, a draw, a refused Load -/

/-- Settles O7: a step is the delivery of the head of the list, or of a Cycle, and an enabled Cycle in bounds
runs what it decoded. -/
theorem stepRunsDecodedInstruction : Obligations.StepRunsDecodedInstruction := by
  unfold Obligations.StepRunsDecodedInstruction
  refine ⟨fun s i hrun hwait hnext hpc hi => ?_, fun s e rest => step_of_pending, fun s hnone => ?_⟩
  · rw [step, hnext]
    exact cycle_of_decodeWord_ok (s := s.dropEvent) hrun hwait hpc hi
  · have hdrop : s.dropEvent = s := by
      rw [State.dropEvent, hnone, List.tail_nil, ← hnone]
      rfl
    rw [step, hdrop, State.nextEvent, hnone, List.headD_nil]

/-- Settles O12: a Cycle looks at `EXEC` and then at `WAIT`. -/
theorem disabledCycleStopsByName : Obligations.DisabledCycleStopsByName := by
  unfold Obligations.DisabledCycleStopsByName
  refine fun s => ⟨fun hexec => ?_, fun hexec => ?_, fun ⟨hexec, hwait⟩ => ?_⟩
  · simp only [deliver, cycle, hexec]
  · simp only [deliver, cycle, hexec]
  · obtain ⟨x, hx⟩ := Option.ne_none_iff_exists'.1 hwait
    simp only [deliver, cycle, hexec, hx]

/-- Settles O26: the mask 0xFF keeps the draw whole. -/
theorem randomDrawIsNextFreeValue : Obligations.RandomDrawIsNextFreeValue := by
  unfold Obligations.RandomDrawIsNextFreeValue
  refine fun s x => ⟨_, rfl, ?_, rfl⟩
  rw [State.nextDraw_getV, State.getV_setV, if_pos rfl, State.rand]
  exact BitVec.and_allOnes

/-- Settles O41: the checks of a Load in their order. -/
theorem loadErrorsAreRefused : Obligations.LoadErrorsAreRefused := by
  unfold Obligations.LoadErrorsAreRefused
  refine fun s img => ⟨fun hempty => ?_, fun hlong => ?_, fun ⟨hpos, hlen, hpre, hfont⟩ => ?_⟩
  · exact if_pos hempty
  · exact (if_neg (by omega)).trans (if_pos hlong)
  · exact (if_neg (by omega)).trans ((if_neg (Nat.not_lt.2 hlen)).trans (if_pos ⟨hpre, hfont⟩))

end Sys2Proof.Machine
end
